-- ==== Sys2Proof/Word.lean ====
section
/-! DEFINITION. The words of the machine: bytes, 32-bit elements, 64-bit lanes, the four-lane vector
`Vec4` and the sixteen-lane state block (00_scope.md R10, 10_state.md R20). The operations on them are
in Decode.lean (byte and bit views) and Machine/Lanes.lean (the datapath). -/

namespace Sys2Proof

/-- A byte, `u8` (R10). -/
abbrev Byte := BitVec 8

/-- A 32-bit element, `u32` (R10). -/
abbrev U32 := BitVec 32

/-- A 64-bit lane, `u64` (R10). -/
abbrev U64 := BitVec 64

/-- A 256-bit port value: DIN or DOUT (10_state.md R30). -/
abbrev Port := BitVec 256

/-- A `Vec4`: four u64 lanes `V[0]`, `V[1]`, `V[2]`, `V[3]` (R10). -/
structure Vec4 where
  l0 : U64
  l1 : U64
  l2 : U64
  l3 : U64
deriving DecidableEq, Repr, Inhabited

/-- The state block: "four 4-lane registers v0, v1, mul0, mul1", sixteen 64-bit registers (R20). -/
structure LaneBlock where
  v0 : Vec4
  v1 : Vec4
  mul0 : Vec4
  mul1 : Vec4
deriving DecidableEq, Repr, Inhabited

end Sys2Proof
end

