-- ==== Sys2Proof/Config.lean ====
section
/-! DEFINITION. What an implementation fixes and the free values. Everything here is an opaque
constant: nothing in Lean can evaluate it, so a claim about it holds whatever the value is. -/

namespace Sys2Proof

/-- W_PHYS, the physical datapath width in 64-bit lanes (00_scope.md R7, 92_eei_decisions.md D26):
an implementation parameter that no rule reads, and that no definition of this model reads
(assumption 9, DEDUCED, safe). -/
opaque Config.physWidth : Nat

/-- FREE VALUE. The content of one lane register when the spec calls it unspecified: after a FIN
command (43_finalize.md R148) and after POR (70_reset_and_hazards.md R190, R191). The argument is a
number that is used once, made from the counter `fresh` of the state (assumption 2, DESIGN CHOICE,
safe). -/
opaque Config.unspecifiedLane : Nat → U64

/-- Four unspecified lanes, numbered `n` to `n + 3`. -/
def Config.unspecifiedVec (n : Nat) : Vec4 :=
  ⟨Config.unspecifiedLane n, Config.unspecifiedLane (n + 1),
   Config.unspecifiedLane (n + 2), Config.unspecifiedLane (n + 3)⟩

/-- The sixteen unspecified lane registers of the `k`-th event that leaves them unspecified. -/
def Config.unspecifiedBlock (k : Nat) : LaneBlock :=
  ⟨Config.unspecifiedVec (16 * k), Config.unspecifiedVec (16 * k + 4),
   Config.unspecifiedVec (16 * k + 8), Config.unspecifiedVec (16 * k + 12)⟩

end Sys2Proof
end

