-- ==== Sys2Proof/Syntax.lean ====
section
/-! DEFINITION. The syntax of the host port: the container of a command, the seven commands with their
operands, and what decoding can answer (30_encoding.md). -/

namespace Sys2Proof

/-- A command as the host presents it: "a pair (CW, DIN): a 16-bit command word and a 256-bit
payload" (R60). -/
structure Command where
  cw : BitVec 16
  din : Port
deriving DecidableEq, Repr, Inhabited

/-- The operand of RDREG: a lane vector by its name (R69); the numbers are those of R21. -/
inductive VecSel where
  | v0
  | v1
  | mul0
  | mul1
deriving DecidableEq, Repr, Inhabited

/-- The operations that the OP field names (R63). -/
inductive Op where
  | reset
  | update
  | fin64
  | fin128
  | fin256
  | rdst
  | rdreg
deriving DecidableEq, Repr, Inhabited

/-- The seven commands, one constructor per row of spec/opcode_table.json, with the operands that the
assembler writes (R69): the key of RESET, the message fragment of UPDATE (its length is NB, its first
byte the earliest), the vector of RDREG. What a format ignores of DIN (R62) is no operand. -/
inductive Instr where
  /-- RESET: load the key `K[0..3]` (R111). -/
  | reset (key : Vec4)
  /-- UPDATE: append the bytes `X[0..NB]` to the message (R124). -/
  | update (x : List Byte)
  /-- FIN64: end the message, return a 64-bit digest (R145). -/
  | fin64
  /-- FIN128: end the message, return a 128-bit digest (R146). -/
  | fin128
  /-- FIN256: end the message, return a 256-bit digest (R147). -/
  | fin256
  /-- RDST: return STATUS (R160). -/
  | rdst
  /-- RDREG: return one lane vector (R162). -/
  | rdreg (sel : VecSel)
deriving DecidableEq, Repr, Inhabited

/-- What decoding answers: "one of the seven commands, IllegalCmd, or BadLength" (R65). -/
inductive Decoded where
  | instr (i : Instr)
  | illegalCmd
  | badLength
deriving DecidableEq, Repr, Inhabited

/-- One row of the opcode map (R63): a word selects it when `(CW & mask) = pattern`. -/
structure OpRow where
  op : Op
  pattern : BitVec 16
  mask : BitVec 16
deriving DecidableEq, Repr

end Sys2Proof
end

