-- ==== Sys2Proof/WellFormed.lean ====
section
/-! DEFINITION. Which terms of the syntax are commands: an UPDATE carries 0 to 32 bytes (R61, R63). -/

namespace Sys2Proof

/-- The one check of the syntax: NB ≤ 32. Every key, every vector and every byte value is legal. -/
def Instr.wellFormed : Instr → Bool
  | .reset _ => true
  | .update x => decide (x.length ≤ 32)
  | .fin64 => true
  | .fin128 => true
  | .fin256 => true
  | .rdst => true
  | .rdreg _ => true

end Sys2Proof
end

