-- ==== Sys2Proof/Decode.lean ====
section
/-! DEFINITION. The byte and bit views of a 256-bit value, the fields of the command word, the decoder
(total, rejecting by name), and after it the encoder (30_encoding.md R60 to R67, 00_scope.md R11). -/

namespace Sys2Proof

/-! ### Views of 256 bits, all little-endian (R11, R40) -/

/-- A byte string read as one unsigned integer, lowest byte first: `Σ p[k] · 2^(8k)` (R11, R13). -/
def leNat : List Byte → Nat
  | [] => 0
  | b :: bs => b.toNat + 256 * leNat bs

/-- The low `8n` bits of a number as `n` bytes, lowest byte first (R13, MemWrite). -/
def leBytes : Nat → Nat → List Byte
  | 0, _ => []
  | n + 1, v => BitVec.ofNat 8 v :: leBytes n (v / 256)

/-- Byte `j` of a 256-bit port value: bits `[8j+7 : 8j]` (R30). -/
def portByte (d : Port) (j : Nat) : Byte := d.extractLsb' (8 * j) 8

/-- The 32 bytes of a port value, offset 0 first (R30). -/
def portBytes (d : Port) : List Byte := (List.range 32).map (portByte d)

/-- A port value from its bytes, offset 0 first; the offsets past the end of the list are zero (R69). -/
def portOfBytes (p : List Byte) : Port := BitVec.ofNat 256 (leNat p)

/-- A Vec4 as one 256-bit vector: lane `i` is bits `[64i+63 : 64i]` (R10). -/
def Vec4.toPort (v : Vec4) : Port := v.l3 ++ v.l2 ++ v.l1 ++ v.l0

/-- The four lanes of a 256-bit vector (R10). -/
def Vec4.ofPort (d : Port) : Vec4 :=
  ⟨d.extractLsb' 0 64, d.extractLsb' 64 64, d.extractLsb' 128 64, d.extractLsb' 192 64⟩

/-! ### Fields of the command word (R61) -/

/-- OP = `CW[3:0]`. -/
def cwOp (cw : BitVec 16) : BitVec 4 := cw.extractLsb' 0 4

/-- NB = `CW[9:4]`. -/
def cwNb (cw : BitVec 16) : BitVec 6 := cw.extractLsb' 4 6

/-- SEL = `CW[11:10]`. -/
def cwSel (cw : BitVec 16) : BitVec 2 := cw.extractLsb' 10 2

/-- RSV = `CW[15:12]`. -/
def cwRsv (cw : BitVec 16) : BitVec 4 := cw.extractLsb' 12 4

/-- A command word from its fields, RSV zero. -/
def cwWord (op : BitVec 4) (nb : BitVec 6) (sel : BitVec 2) : BitVec 16 := 0#4 ++ sel ++ nb ++ op

/-- The opcode map (R63, D4): the operation of an OP value, none for the reserved ones. -/
def Op.ofBits (op : BitVec 4) : Option Op :=
  if op = 0x1#4 then some .reset
  else if op = 0x2#4 then some .update
  else if op = 0x4#4 then some .fin64
  else if op = 0x5#4 then some .fin128
  else if op = 0x6#4 then some .fin256
  else if op = 0x8#4 then some .rdst
  else if op = 0x9#4 then some .rdreg
  else none

/-- The OP value of an operation (R63). -/
def Op.toBits : Op → BitVec 4
  | .reset => 0x1#4
  | .update => 0x2#4
  | .fin64 => 0x4#4
  | .fin128 => 0x5#4
  | .fin256 => 0x6#4
  | .rdst => 0x8#4
  | .rdreg => 0x9#4

/-- The vector numbers (R21): 0 = `v0`, 1 = `v1`, 2 = `mul0`, 3 = `mul1`. -/
def VecSel.ofBits (sel : BitVec 2) : VecSel :=
  if sel = 0#2 then .v0 else if sel = 1#2 then .v1 else if sel = 2#2 then .mul0 else .mul1

/-- The number of a vector (R21). -/
def VecSel.toBits : VecSel → BitVec 2
  | .v0 => 0#2
  | .v1 => 1#2
  | .mul0 => 2#2
  | .mul1 => 3#2

/-- The rows of the opcode map as R63 prints them, pattern and mask. The decoder below is written from
the procedure R67; that the two agree is a statement. -/
def opRows : List OpRow :=
  [ ⟨.reset,  0x0001#16, 0xffff#16⟩,
    ⟨.update, 0x0002#16, 0xfc0f#16⟩,
    ⟨.fin64,  0x0004#16, 0xffff#16⟩,
    ⟨.fin128, 0x0005#16, 0xffff#16⟩,
    ⟨.fin256, 0x0006#16, 0xffff#16⟩,
    ⟨.rdst,   0x0008#16, 0xffff#16⟩,
    ⟨.rdreg,  0x0009#16, 0xf3ff#16⟩ ]

/-- A word matches a row when `(CW & mask) = pattern` (R63). -/
def OpRow.selects (r : OpRow) (cw : BitVec 16) : Bool := decide (cw &&& r.mask = r.pattern)

/-! ### Operands (R64) -/

/-- The key of RESET, `K[i] = DIN_bits[64i+63 : 64i]`. -/
def keyOperand (din : Port) : Vec4 := Vec4.ofPort din

/-- The payload of UPDATE, `X[0..NB]` with `X[j] = DIN_bits[8j+7 : 8j]`. -/
def payloadOperand (nb : BitVec 6) (din : Port) : List Byte := (portBytes din).take nb.toNat

/-! ### Decoding (R65, R67) -/

/-- The command of a legal word, with its operands (the last line of R67). -/
def operands (op : Op) (c : Command) : Instr :=
  match op with
  | .reset => .reset (keyOperand c.din)
  | .update => .update (payloadOperand (cwNb c.cw) c.din)
  | .fin64 => .fin64
  | .fin128 => .fin128
  | .fin256 => .fin256
  | .rdst => .rdst
  | .rdreg => .rdreg (VecSel.ofBits (cwSel c.cw))

/-- The decoder, in the order of R67. -/
def decode (c : Command) : Decoded :=
  if cwRsv c.cw ≠ 0#4 then .illegalCmd
  else match Op.ofBits (cwOp c.cw) with
    | none => .illegalCmd
    | some op =>
      if op ≠ .update ∧ cwNb c.cw ≠ 0#6 then .illegalCmd
      else if op ≠ .rdreg ∧ cwSel c.cw ≠ 0#2 then .illegalCmd
      else if op = .update ∧ 32 < (cwNb c.cw).toNat then .badLength
      else .instr (operands op c)

/-! ### Encoding (R61, R63, R69) -/

/-- The operation of a command. -/
def Instr.op : Instr → Op
  | .reset _ => .reset
  | .update _ => .update
  | .fin64 => .fin64
  | .fin128 => .fin128
  | .fin256 => .fin256
  | .rdst => .rdst
  | .rdreg _ => .rdreg

/-- The words of a command as the assembler writes them: NB is the number of payload bytes, byte `j` of
the payload is DIN byte `j`, every unused bit is zero (R69). -/
def encode : Instr → Command
  | .reset key => ⟨cwWord (Op.toBits .reset) 0#6 0#2, key.toPort⟩
  | .update x => ⟨cwWord (Op.toBits .update) (BitVec.ofNat 6 x.length) 0#2, portOfBytes x⟩
  | .fin64 => ⟨cwWord (Op.toBits .fin64) 0#6 0#2, 0#256⟩
  | .fin128 => ⟨cwWord (Op.toBits .fin128) 0#6 0#2, 0#256⟩
  | .fin256 => ⟨cwWord (Op.toBits .fin256) 0#6 0#2, 0#256⟩
  | .rdst => ⟨cwWord (Op.toBits .rdst) 0#6 0#2, 0#256⟩
  | .rdreg sel => ⟨cwWord (Op.toBits .rdreg) 0#6 (VecSel.toBits sel), 0#256⟩

/-- The assembler's `.word w, b0, b1, …`: a raw command word with the bytes given at DIN (R69). -/
def rawWord (w : BitVec 16) (p : List Byte) : Command := ⟨w, portOfBytes (p.take 32)⟩

/-! ### A command as bytes (R60) -/

/-- The 34 bytes of a command: `CW[7:0]`, `CW[15:8]`, then DIN bytes 0 to 31. -/
def Command.toBytes (c : Command) : List Byte :=
  c.cw.extractLsb' 0 8 :: c.cw.extractLsb' 8 8 :: portBytes c.din

/-- The command that 34 bytes write; no command has another length (R60; assumption 15, DEDUCED, safe). -/
def Command.ofBytes : List Byte → Option Command
  | b0 :: b1 :: d => if d.length = 32 then some ⟨b1 ++ b0, portOfBytes d⟩ else none
  | _ => none

/-- The 34 bytes of a command whose bits are `w`, numbered as the opcode table numbers them, of which
the row gives `nbits`; every bit above them is zero. -/
def tableBytes (nbits w : Nat) : List Byte := leBytes 34 (w % 2 ^ nbits)

/-- The command those bytes write (the fallback is never taken: `tableBytes` has 34 bytes). -/
def tableCommand (nbits w : Nat) : Command :=
  match Command.ofBytes (tableBytes nbits w) with
  | some c => c
  | none => ⟨0#16, 0#256⟩

/-- The instruction that the decoder reads from a table word. -/
def decodeTableWord (nbits w : Nat) : Option Instr :=
  match decode (tableCommand nbits w) with
  | .instr i => some i
  | .illegalCmd => none
  | .badLength => none

end Sys2Proof
end

