-- ==== Sys2Proof/Machine/Lanes.lean ====
section
/-! DEFINITION. The lane operations, the pure functions of the datapath units (40_lane_ops.md R80 to
R99). Each acts on all four lanes, reads only its operands, sets no flag and raises no error (R80). -/

namespace Sys2Proof.Machine

/-- One operation on each of the four lanes. -/
def mapLanes (f : U64 → U64) (v : Vec4) : Vec4 := ⟨f v.l0, f v.l1, f v.l2, f v.l3⟩

/-- One two-operand operation, lane by lane. -/
def zipLanes (f : U64 → U64 → U64) (a b : Vec4) : Vec4 :=
  ⟨f a.l0 b.l0, f a.l1 b.l1, f a.l2 b.l2, f a.l3 b.l3⟩

/-- Lane `i` of a vector (`i` in 0..3). -/
def laneOf (v : Vec4) : Nat → U64
  | 0 => v.l0
  | 1 => v.l1
  | 2 => v.l2
  | _ => v.l3

/-- Byte `j` of a vector: byte `j mod 8` of lane `j div 8` (R11). -/
def vecByte (v : Vec4) (j : Nat) : Byte := (laneOf v (j / 8)).extractLsb' (8 * (j % 8)) 8

/-! ### Units U1 and U2 -/

/-- ADD4 (R82): lane addition modulo 2^64. -/
def add4 (a b : Vec4) : Vec4 := zipLanes (fun x y => x + y) a b

/-- XOR4 (R83). -/
def xor4 (a b : Vec4) : Vec4 := zipLanes (fun x y => x ^^^ y) a b

/-- AND4 (R84). -/
def and4 (a b : Vec4) : Vec4 := zipLanes (fun x y => x &&& y) a b

/-- OR4 (R85). -/
def or4 (a b : Vec4) : Vec4 := zipLanes (fun x y => x ||| y) a b

/-- XOR3 (R86). -/
def xor3 (a b c : Vec4) : Vec4 := xor4 (xor4 a b) c

/-- `SHL<N>` (R87), a constant 0 ≤ N ≤ 63; the type has no larger N, which the spec does not define
(93_implementation_defined.md U12; assumption 11, DEDUCED, safe). -/
def shl4 (n : Fin 64) (v : Vec4) : Vec4 := mapLanes (fun x => x <<< n.val) v

/-- `SHR<N>` (R88), logical. -/
def shr4 (n : Fin 64) (v : Vec4) : Vec4 := mapLanes (fun x => x >>> n.val) v

/-- SHIFT_LANES_LEFT_1 (R89): within each 128-bit half. -/
def shiftLanesLeft1 (v : Vec4) : Vec4 := ⟨0#64, v.l0, 0#64, v.l2⟩

/-! ### Unit U3 -/

/-- Rotate one 32-bit element left by `k mod 32` (R90). -/
def rotl32 (e : U32) (k : Nat) : U32 :=
  if k % 32 = 0 then e else (e <<< (k % 32)) ||| (e >>> (32 - k % 32))

/-- ROT32 (R90): the two 32-bit halves of every lane, each rotated left by one common count
(93_implementation_defined.md U13; assumption 11, DEDUCED, safe). -/
def rot32 (v : Vec4) (k : Nat) : Vec4 :=
  mapLanes (fun x => rotl32 (x.extractLsb' 32 32) k ++ rotl32 (x.extractLsb' 0 32) k) v

/-! ### Load and store (R95, R96, R98) -/

/-- LOAD_PACKET (R95): 32 bytes read as four little-endian u64. -/
def loadPacket (p : List Byte) : Vec4 :=
  ⟨BitVec.ofNat 64 (leNat (p.take 8)),
   BitVec.ofNat 64 (leNat ((p.drop 8).take 8)),
   BitVec.ofNat 64 (leNat ((p.drop 16).take 8)),
   BitVec.ofNat 64 (leNat ((p.drop 24).take 8))⟩

/-- STORE_VEC (R96): the 32 bytes of a vector. -/
def storeVec (v : Vec4) : List Byte := (List.range 32).map (vecByte v)

/-- BROADCAST32 (R98): every 32-bit element equal to `r`. -/
def broadcast32 (r : Nat) : Vec4 :=
  ⟨BitVec.ofNat 64 (r * 2 ^ 32 + r), BitVec.ofNat 64 (r * 2 ^ 32 + r),
   BitVec.ofNat 64 (r * 2 ^ 32 + r), BitVec.ofNat 64 (r * 2 ^ 32 + r)⟩

/-! ### Unit U4 -/

/-- ZIDX, the one index vector of both 128-bit halves (R91; 90_conflicts.md C1). -/
def zipIndex : List Nat := [3, 12, 2, 5, 14, 1, 15, 0, 11, 4, 10, 13, 9, 6, 8, 7]

/-- ZIPPER (R91): byte `16h + j` of the result is byte `16h + ZIDX[j]` of the operand. -/
def zipper (v : Vec4) : Vec4 :=
  loadPacket (zipIndex.map (vecByte v) ++ zipIndex.map (fun k => vecByte v (16 + k)))

/-! ### Unit U5 -/

/-- `rot_u64_by_32` on one lane. -/
def swapHalves (x : U64) : U64 := (x >>> 32) ||| (x <<< 32)

/-- ROT64BY32, the Reset permute (R92). -/
def rot64by32 (v : Vec4) : Vec4 := mapLanes swapHalves v

/-- PERMUTE, the Finalize permute (R93; 90_conflicts.md C2): the 128-bit halves change places, and in
every lane the 32-bit halves. -/
def permute (v : Vec4) : Vec4 :=
  ⟨swapHalves v.l2, swapHalves v.l3, swapHalves v.l0, swapHalves v.l1⟩

/-! ### Unit U6 -/

/-- `low32` and `high32` (R12). -/
def low32 (x : U64) : U64 := x &&& 0xffffffff#64

/-- See `low32`. -/
def high32 (x : U64) : U64 := x >>> 32

/-- MUL32 (R94): the low half of each lane of `a` times the high half of that lane of `b`. -/
def mul32 (a b : Vec4) : Vec4 := zipLanes (fun x y => low32 x * high32 y) a b

/-! ### The constants -/

/-- MUL0 (41_reset.md R110). -/
def constMul0 : Vec4 :=
  ⟨0xdbe6d5d5fe4cce2f#64, 0xa4093822299f31d0#64, 0x13198a2e03707344#64, 0x243f6a8885a308d3#64⟩

/-- MUL1 (R110). -/
def constMul1 : Vec4 :=
  ⟨0x3bd39e10cb0ef593#64, 0xc0acf169b5f18a8c#64, 0xbe5466cf34e90c6c#64, 0x452821e638d01377#64⟩

end Sys2Proof.Machine
end

