-- ==== Sys2Proof/Machine/State.lean ====
section
/-! DEFINITION. The architectural state (10_state.md), the host's side of the port, the reasons a step
can stop, and the state after power-on reset. State is plain data. -/

namespace Sys2Proof.Machine

/-- PHASE, the 2-bit register of the state's lifetime (R26). The value 3 is never written, so it has
no constructor (R26, 93_implementation_defined.md U11; assumption 10, DEDUCED, safe). -/
inductive Phase where
  /-- 0: nothing has been loaded. -/
  | uninit
  /-- 1: the lane registers hold the mixing of all bytes consumed so far. -/
  | active
  /-- 2: a digest has been returned. -/
  | done
deriving DecidableEq, Repr, Inhabited

/-- The three error causes (60_exceptions.md R170); the codes 4 to 7 are never produced (assumption 10,
DEDUCED, safe). -/
inductive Cause where
  /-- 1: the command word matches no row of the opcode map. -/
  | illegalCmd
  /-- 2: UPDATE with NB = 33 to 63. -/
  | badLength
  /-- 3: a command that needs the hash state, in a phase where it is unspecified. -/
  | seqError
deriving DecidableEq, Repr, Inhabited

/-- The response to a command: (ERRF, CODE, DOUT) (30_encoding.md R66). `code = none` is CODE 0. -/
structure Response where
  errf : Bool
  code : Option Cause
  dout : Port
deriving DecidableEq, Repr, Inhabited

/-- One move of the outside world: the host presents a command (CW and DIN, R60), or power-on reset
occurs (70_reset_and_hazards.md R190). The host presents no command early and changes none that it has
presented (assumption 7, DESIGN CHOICE, unsafe); POR falls between commands (assumption 8, DESIGN CHOICE,
unsafe). -/
inductive HostEvent where
  | command (c : Command)
  | por
deriving DecidableEq, Repr, Inhabited

/-- The whole state. `lanes`, `buf`, `phase`, `err`, `errCode` are the core's own (R20 to R27, R31).
`rsp` is the response port, `host` the host's moves still to come; its head is the command now
presented (CW and DIN). `fresh` is the model's own, the number of the next free value. -/
structure State where
  /-- The sixteen lane registers `v0`, `v1`, `mul0`, `mul1` (R20). -/
  lanes : LaneBlock
  /-- BUF with BUFLEN: exactly the BUFLEN valid bytes, earliest first (R24, R25; U4 allows this
  form; assumption 13, DEDUCED, safe). -/
  buf : List Byte
  /-- PHASE (R26). -/
  phase : Phase
  /-- ERR, sticky (R27). -/
  err : Bool
  /-- ERRCODE (R27); `none` is code 0. -/
  errCode : Option Cause
  /-- The last response, with DOUT (R30, R66); none if no command has been answered since POR. -/
  rsp : Option Response
  /-- The moves of the host and of POR still to come, the next one first (00_scope.md R16). -/
  host : List HostEvent
  /-- The model's own counter of unspecified register contents (assumption 2). -/
  fresh : Nat
deriving DecidableEq, Repr

/-- Why a step faults. There is no constructor: the spec gives the machine no way to stop. Every error
of 60_exceptions.md is recorded and answered and the core goes on (R174), and an idle core waits (R68).
No meaning raises a fault, so no behaviour is cut off here (assumption 6, DEDUCED, safe). -/
inductive Fault
deriving DecidableEq, Repr

/-- Why a step is refused. -/
inductive Refusal where
  /-- Raised by a dispatch arm of an instruction without a meaning, by its mnemonic; no arm raises it
  in this model (safe: a refusal proves nothing). -/
  | notModelled (mnemonic : String)
deriving DecidableEq, Repr

/-- The machine right after POR: PHASE = UNINIT, ERR = 0, ERRCODE = 0, BUFLEN = 0 (R32, R190). The spec
leaves the lane registers unspecified; they are zero here (assumption 1, DESIGN CHOICE, unsafe). No
command has been presented or answered (assumption 4, DESIGN CHOICE, unsafe). -/
def State.reset : State :=
  { lanes := ⟨⟨0#64, 0#64, 0#64, 0#64⟩, ⟨0#64, 0#64, 0#64, 0#64⟩,
              ⟨0#64, 0#64, 0#64, 0#64⟩, ⟨0#64, 0#64, 0#64, 0#64⟩⟩
    buf := []
    phase := .uninit
    err := false
    errCode := none
    rsp := none
    host := []
    fresh := 0 }

end Sys2Proof.Machine
end

