-- ==== Sys2Proof/Machine/Operands.lean ====
section
/-! DEFINITION. The byte spaces and their accessors: MemRead and MemWrite, the record REC, a lane vector
by its number, and a response as bytes (00_scope.md R13, 10_state.md R21, R22, R30, 30_encoding.md R66). -/

namespace Sys2Proof.Machine

/-- MemRead(space+a, n) (R13): `n` bytes as a little-endian unsigned integer. -/
def memRead (space : List Byte) (a n : Nat) : Nat := leNat ((space.drop a).take n)

/-- MemWrite(space+a, n, v) (R13): the space with the low `8n` bits of `v` stored at `a`. -/
def memWrite (space : List Byte) (a n v : Nat) : List Byte :=
  space.take a ++ leBytes n v ++ space.drop (a + n)

/-- The lane vector that SEL names (R21). -/
def selectVec (sel : VecSel) (b : LaneBlock) : Vec4 :=
  match sel with
  | .v0 => b.v0
  | .v1 => b.v1
  | .mul0 => b.mul0
  | .mul1 => b.mul1

/-- REC, the 128-byte state record `v0 ∥ v1 ∥ mul0 ∥ mul1` (R22). -/
def record (b : LaneBlock) : List Byte :=
  storeVec b.v0 ++ storeVec b.v1 ++ storeVec b.mul0 ++ storeVec b.mul1

/-- The four 64-bit operands of RESET read through MemRead from the DIN bytes (R64, R111). -/
def keyFromBytes (din : List Byte) : Vec4 :=
  ⟨BitVec.ofNat 64 (memRead din 0 8), BitVec.ofNat 64 (memRead din 8 8),
   BitVec.ofNat 64 (memRead din 16 8), BitVec.ofNat 64 (memRead din 24 8)⟩

end Sys2Proof.Machine
end

