-- ==== Sys2Proof/Machine/Flags.lean ====
section
/-! DEFINITION. PHASE, ERR, ERRCODE, BUFLEN as bit fields, the STATUS word, and the error record
(10_state.md R25 to R29, 60_exceptions.md R170, R174). No lane operation sets a flag (R80). -/

namespace Sys2Proof.Machine

/-- The 2-bit value of PHASE (R26). -/
def Phase.toBits : Phase → BitVec 2
  | .uninit => 0#2
  | .active => 1#2
  | .done => 2#2

/-- The 3-bit code of an error cause (R170). -/
def Cause.toBits : Cause → BitVec 3
  | .illegalCmd => 1#3
  | .badLength => 2#3
  | .seqError => 3#3

/-- The 3-bit value of ERRCODE or CODE: 0 without an error (R27, R66). -/
def codeBits : Option Cause → BitVec 3
  | none => 0#3
  | some c => c.toBits

/-- BUFLEN, the 5-bit count of the valid bytes in BUF (R25). -/
def bufLen (s : State) : BitVec 5 := BitVec.ofNat 5 s.buf.length

/-- STATUS (R29), bit 31 first: zero[31:13], BUFLEN[12:8], zero[7:6], ERRCODE[5:3], ERR[2], PHASE[1:0]. -/
def status (s : State) : BitVec 32 :=
  0#19 ++ bufLen s ++ 0#2 ++ codeBits s.errCode ++ BitVec.ofBool s.err ++ s.phase.toBits

/-- The error record (R174): "if ERR = 0: ERRCODE <- c" and then "ERR <- 1". -/
def recordError (c : Cause) (s : State) : State :=
  { s with
    err := true
    errCode := if s.err then s.errCode else some c }

/-- A response as 33 bytes: `RS = (CODE << 1) | ERRF`, then DOUT bytes 0 to 31 (R66). -/
def Response.toBytes (r : Response) : List Byte :=
  (0#4 ++ codeBits r.code ++ BitVec.ofBool r.errf : BitVec 8) :: portBytes r.dout

end Sys2Proof.Machine
end

