-- ==== Sys2Proof/Machine/Round.lean ====
section
/-! DEFINITION. The internal sequences over the state block: the Reset kernel, the round, the
partial-packet handler, permute-update and the modular reduction (41_reset.md R111, 42_update.md R120
to R128, 43_finalize.md R140 to R144). All are pure functions; the commands call them. -/

namespace Sys2Proof.Machine

/-- The lane registers that the Reset kernel leaves for a key (R111, step 1). -/
def resetLanes (key : Vec4) : LaneBlock :=
  { v0 := xor4 key constMul0
    v1 := xor4 (rot64by32 key) constMul1
    mul0 := constMul0
    mul1 := constMul1 }

/-- ROUND(A) (R120): six steps, each reading the registers as the steps before it left them. -/
def hashRound (a : Vec4) (b : LaneBlock) : LaneBlock :=
  let v1 := add4 b.v1 (add4 b.mul0 a)
  let mul0 := xor4 b.mul0 (mul32 v1 b.v0)
  let v0 := add4 b.v0 b.mul1
  let mul1 := xor4 b.mul1 (mul32 v0 v1)
  let v0' := add4 v0 (zipper v1)
  let v1' := add4 v1 (zipper v0')
  ⟨v0', v1', mul0, mul1⟩

/-- REMAINDER_PACKET (R127) of a remainder `p` of 1 to 31 bytes: 32 bytes. `4 * (r / 4)` is `r & ~3`
and `r % 4` is `r & 3`. -/
def remainderPacket (p : List Byte) : List Byte :=
  let r := p.length
  let r4 := 4 * (r / 4)
  let t := r % 4
  if 16 ≤ r then
    p.take r4 ++ List.replicate (28 - r4) 0#8 ++ p.drop (r - 4)
  else if t ≠ 0 then
    p.take r4 ++ List.replicate (16 - r4) 0#8
      ++ [p.getD r4 0#8, p.getD (r4 + t / 2) 0#8, p.getD (r4 + t - 1) 0#8]
      ++ List.replicate 13 0#8
  else
    p.take r4 ++ List.replicate (32 - r4) 0#8

/-- REMAINDER (R128) with `r` the number of bytes in `p`. -/
def remainder (p : List Byte) (b : LaneBlock) : LaneBlock :=
  hashRound (loadPacket (remainderPacket p))
    { b with
      v0 := add4 b.v0 (broadcast32 p.length)
      v1 := rot32 b.v1 p.length }

/-- PERMUTE_UPDATE (R140). -/
def permuteUpdate (b : LaneBlock) : LaneBlock := hashRound (permute b.v0) b

/-- `k` permute-update rounds. -/
def permuteUpdates : Nat → LaneBlock → LaneBlock
  | 0, b => b
  | k + 1, b => permuteUpdates k (permuteUpdate b)

/-- FIN_PREP(k) (R142): the partial-packet handler on what is left in BUF, then `k` permute-updates. -/
def finPrep (k : Nat) (buf : List Byte) (b : LaneBlock) : LaneBlock :=
  permuteUpdates k (if buf.length ≠ 0 then remainder buf b else b)

/-- MODRED (R143): the pair `(m1, m0)`. -/
def modred (a3raw a2 a1 a0 : U64) : U64 × U64 :=
  let a3 := a3raw &&& 0x3fffffffffffffff#64
  (a1 ^^^ ((a3 <<< 1) ||| (a2 >>> 63)) ^^^ ((a3 <<< 2) ||| (a2 >>> 62)),
   a0 ^^^ (a2 <<< 1) ^^^ (a2 <<< 2))

/-- MASK3 (R144). -/
def mask3 : Vec4 :=
  ⟨0xffffffffffffffff#64, 0x3fffffffffffffff#64, 0xffffffffffffffff#64, 0x3fffffffffffffff#64⟩

/-- MODRED on whole vectors, the form the datapath computes (R144). -/
def modredVec (a01 a23 : Vec4) : Vec4 :=
  let a23m := and4 a23 mask3
  let c := shiftLanesLeft1 a23
  xor3 a01 (or4 (shl4 1 a23m) (shr4 63 c)) (or4 (shl4 2 a23m) (shr4 62 c))

/-- The 64-bit extraction (R145, steps 2 and 3): DOUT bytes 8 to 31 are zero. -/
def extract64 (b : LaneBlock) : Port :=
  (b.v0.l0 + b.v1.l0 + b.mul0.l0 + b.mul1.l0).setWidth 256

/-- The 128-bit extraction (R146, steps 2 and 3): `hash[1] ∥ hash[0]`, bytes 16 to 31 zero. -/
def extract128 (b : LaneBlock) : Port :=
  let hash0 := b.v0.l0 + b.mul0.l0 + b.v1.l2 + b.mul1.l2
  let hash1 := b.v0.l1 + b.mul0.l1 + b.v1.l3 + b.mul1.l3
  (hash1 ++ hash0 : BitVec 128).setWidth 256

/-- The 256-bit extraction (R147, steps 2 to 4): one modular reduction per 128-bit half. -/
def extract256 (b : LaneBlock) : Port :=
  let a01 := add4 b.v0 b.mul0
  let a23 := add4 b.v1 b.mul1
  let half0 := modred a23.l1 a23.l0 a01.l1 a01.l0
  let half1 := modred a23.l3 a23.l2 a01.l3 a01.l2
  Vec4.toPort ⟨half0.2, half0.1, half1.2, half1.1⟩

end Sys2Proof.Machine
end

