-- ==== Sys2Proof/Machine/Ops.lean ====
section
/-! DEFINITION. The shared operations on the state: responding, raising an error, the phase check,
loading and forgetting the hash state, and power-on reset. Every meaning is built from these. -/

namespace Sys2Proof.Machine

/-- Answer a command that completes without error: ERRF = 0, CODE = 0, DOUT (30_encoding.md R66). -/
def respond (dout : Port) (s : State) : State :=
  { s with rsp := some ⟨false, none, dout⟩ }

/-- Answer a command that raises an error: ERRF = 1, CODE the cause, DOUT zero (R66). -/
def respondError (c : Cause) (s : State) : State :=
  { s with rsp := some ⟨true, some c, 0#256⟩ }

/-- TAKING AN EXCEPTION, `raise E` (60_exceptions.md R174): the error record and the response, and
nothing else. Nothing is entered, so there is no return beside it: the core is ready for the next
command (R175). -/
def raise (c : Cause) (s : State) : Host.Outcome State Fault Refusal :=
  .next (respondError c (recordError c s))

/-- The phase check (R172) of a command that needs the hash state: admitted when PHASE is ACTIVE, with
effect `k`, and a SeqError otherwise. -/
def whenActive (k : State → State) (s : State) : Host.Outcome State Fault Refusal :=
  if s.phase = .active then .next (k s) else raise .seqError s

/-- Write the lane registers and BUF together with BUFLEN. -/
def setHash (b : LaneBlock) (buf : List Byte) (s : State) : State :=
  { s with
    lanes := b
    buf := buf }

/-- `PHASE <- p`. -/
def setPhase (p : Phase) (s : State) : State := { s with phase := p }

/-- The rest of the host's moves, the present one taken. -/
def setHost (h : List HostEvent) (s : State) : State := { s with host := h }

/-- The lane registers and all bytes of BUF become unspecified and BUFLEN becomes 0: the lanes take free
values that were never used before (R14, R148; assumption 2), and BUF holds no valid byte. -/
def forgetHash (s : State) : State :=
  { s with
    lanes := Config.unspecifiedBlock s.fresh
    buf := []
    fresh := s.fresh + 1 }

/-- POR (70_reset_and_hazards.md R190): PHASE, ERR, ERRCODE and BUFLEN take the values of R32, the lane
registers and BUF are unspecified, and no response stands (assumption 4). It does not touch the host's
moves (assumption 8, DESIGN CHOICE, unsafe). -/
def por (s : State) : State :=
  { forgetHash s with
    phase := .uninit
    err := false
    errCode := none
    rsp := none }

end Sys2Proof.Machine
end

