-- ==== Sys2Proof/Machine/FinalizeCmd.lean ====
section
/-! DEFINITION. The FIN64, FIN128 and FIN256 commands (43_finalize.md R145 to R149). -/

namespace Sys2Proof.Machine

/-- What the three FIN commands share: FIN_PREP, the extraction, the common tail (R142, R148). -/
def finish (rounds : Nat) (extract : LaneBlock → Port) (s : State) : State :=
  respond (extract (finPrep rounds s.buf s.lanes)) (setPhase .done (forgetHash s))

/-- FIN64 (R145): 4 permute-update rounds. -/
def execFin64 (s : State) : Host.Outcome State Fault Refusal := whenActive (finish 4 extract64) s

/-- FIN128 (R146): 6 permute-update rounds. -/
def execFin128 (s : State) : Host.Outcome State Fault Refusal := whenActive (finish 6 extract128) s

/-- FIN256 (R147): 10 permute-update rounds. -/
def execFin256 (s : State) : Host.Outcome State Fault Refusal := whenActive (finish 10 extract256) s

end Sys2Proof.Machine
end

