-- ==== Sys2Proof/Machine/ReadoutCmd.lean ====
section
/-! DEFINITION. The read-out commands RDST and RDREG (44_readout.md R160 to R163). -/

namespace Sys2Proof.Machine

/-- RDST (R160), legal in every phase: DOUT is STATUS as it stood before the command. -/
def execRdst (s : State) : Host.Outcome State Fault Refusal :=
  .next (respond ((status s).setWidth 256) s)

/-- RDREG (R162): DOUT is the lane vector that SEL names. -/
def execRdreg (sel : VecSel) (s : State) : Host.Outcome State Fault Refusal :=
  whenActive (fun s => respond (selectVec sel s.lanes).toPort s) s

end Sys2Proof.Machine
end

