-- ==== Sys2Proof/Machine/ResetCmd.lean ====
section
/-! DEFINITION. The RESET command (41_reset.md R111). -/

namespace Sys2Proof.Machine

/-- RESET (R111), legal in every phase: load the key, empty BUF, PHASE becomes ACTIVE; ERR and ERRCODE
are not changed. -/
def execReset (key : Vec4) (s : State) : Host.Outcome State Fault Refusal :=
  .next (respond 0#256 (setPhase .active (setHash (resetLanes key) [] s)))

end Sys2Proof.Machine
end

