-- ==== Sys2Proof/Machine/UpdateCmd.lean ====
section
/-! DEFINITION. The UPDATE command, the streaming packet consumer (42_update.md R122 to R126). -/

namespace Sys2Proof.Machine

/-- Steps 1 to 3 of UPDATE (R124): append to BUF, and consume one packet when 32 bytes are present. -/
def absorb (x : List Byte) (s : State) : State :=
  let t := s.buf ++ x
  if 32 ≤ t.length then setHash (hashRound (loadPacket (t.take 32)) s.lanes) (t.drop 32) s
  else setHash s.lanes t s

/-- UPDATE (R124). More than 32 bytes is the error BadLength, before the phase is looked at (R170,
R173; assumption 12, DEDUCED, safe); the decoder turns such a word away already, so no decoded UPDATE takes
that branch. -/
def execUpdate (x : List Byte) (s : State) : Host.Outcome State Fault Refusal :=
  if 32 < x.length then raise .badLength s
  else whenActive (fun s => respond 0#256 (absorb x s)) s

end Sys2Proof.Machine
end

