-- ==== Sys2Proof/Machine/Dispatch.lean ====
section
/-! DEFINITION. One arm per command. -/

namespace Sys2Proof.Machine

def exec (i : Instr) (s : State) : Host.Outcome State Fault Refusal :=
  match i with
  | .reset key => Sys2Proof.Machine.execReset key s
  | .update x => Sys2Proof.Machine.execUpdate x s
  | .fin64 => Sys2Proof.Machine.execFin64 s
  | .fin128 => Sys2Proof.Machine.execFin128 s
  | .fin256 => Sys2Proof.Machine.execFin256 s
  | .rdst => Sys2Proof.Machine.execRdst s
  | .rdreg sel => Sys2Proof.Machine.execRdreg sel s

end Sys2Proof.Machine
end

