-- ==== Sys2Proof/Machine/Command.lean ====
section
/-! DEFINITION. One move of the outside world: decode and dispatch of one command (30_encoding.md R67),
power-on reset (70_reset_and_hazards.md R190), and the idle core. -/

namespace Sys2Proof.Machine

/-- Answer one command: decode it, raise the error that decoding reports, or run the command (its phase
check is part of its meaning), in the order of R67 and R173. -/
def answer (c : Command) (s : State) : Host.Outcome State Fault Refusal :=
  match decode c with
  | .illegalCmd => raise .illegalCmd s
  | .badLength => raise .badLength s
  | .instr i => exec i s

/-- One step: the next move of the host is taken and carried out whole (R44, R47). With no command
presented the core waits and nothing changes (00_scope.md R16, R68; assumption 3, DESIGN CHOICE, safe). -/
def advance (s : State) : Host.Outcome State Fault Refusal :=
  match s.host with
  | [] => .next s
  | .por :: rest => .next (por (setHost rest s))
  | .command c :: rest => answer c (setHost rest s)

/-- Present one more command, before the moves already scheduled. -/
def present (c : Command) (s : State) : State := setHost (.command c :: s.host) s

end Sys2Proof.Machine
end

