-- ==== Sys2Proof/Machine/Step.lean ====
section
/-! DEFINITION. The step function, and how a command word is put where the next step takes it. -/

namespace Sys2Proof.Machine

/-- One step of the core: one command, from the state before it to the state after it (R44). -/
def step (s : State) : Host.Outcome State Fault Refusal := advance s

/-- The state in which the host presents, as its next move, the command whose bits are `w` (assumption
5, DESIGN CHOICE, safe: the block fetches nothing, the host presents every command, R28). -/
def State.withFetchWord (s : State) (nbits w : Nat) : State := present (tableCommand nbits w) s

end Sys2Proof.Machine
end

