-- ==== Sys2Proof/Machine/HashFunction.lean ====
section
/-! DEFINITION. The function the block computes, as 00_scope.md R19 writes it: from a key and a whole
message, with no buffer, no phase and no commands. Claims compare the machine with it. -/

namespace Sys2Proof.Machine

/-- `S_j`: the state block after the first `j` packets of `m`, from a start block (R19). -/
def hashPackets (b : LaneBlock) (m : List Byte) : Nat → LaneBlock
  | 0 => b
  | j + 1 => hashRound (loadPacket ((m.drop (32 * j)).take 32)) (hashPackets b m j)

/-- `S'` of R19: all complete packets, then the remainder when there is one. -/
def hashMessage (key : Vec4) (m : List Byte) : LaneBlock :=
  let q := m.length / 32
  let s := hashPackets (resetLanes key) m q
  if m.length % 32 ≠ 0 then remainder (m.drop (32 * q)) s else s

/-- The 64-bit digest of R19, as DOUT holds it. -/
def digest64 (key : Vec4) (m : List Byte) : Port := extract64 (permuteUpdates 4 (hashMessage key m))

/-- The 128-bit digest of R19, as DOUT holds it. -/
def digest128 (key : Vec4) (m : List Byte) : Port :=
  extract128 (permuteUpdates 6 (hashMessage key m))

/-- The 256-bit digest of R19, as DOUT holds it. -/
def digest256 (key : Vec4) (m : List Byte) : Port :=
  extract256 (permuteUpdates 10 (hashMessage key m))

end Sys2Proof.Machine
end

