-- ==== Sys2Proof/Machine/Pseudo.lean ====
section
/-! DEFINITION. The pseudo-instructions of 30_encoding.md (R70, R71): lists of commands, no commands of
their own. -/

namespace Sys2Proof.Machine

/-- `UPDATEN m` (R70): the first `n div 32` commands carry 32 bytes, one more carries the rest when
`n mod 32` is not 0. -/
def updateN (m : List Byte) : List Instr :=
  (List.range (m.length / 32)).map (fun j => Instr.update ((m.drop (32 * j)).take 32))
    ++ (if m.length % 32 = 0 then [] else [Instr.update (m.drop (32 * (m.length / 32)))])

/-- `HASH64 key, m` (R71). -/
def hash64 (key : Vec4) (m : List Byte) : List Instr := .reset key :: (updateN m ++ [.fin64])

/-- `HASH128 key, m` (R71). -/
def hash128 (key : Vec4) (m : List Byte) : List Instr := .reset key :: (updateN m ++ [.fin128])

/-- `HASH256 key, m` (R71). -/
def hash256 (key : Vec4) (m : List Byte) : List Instr := .reset key :: (updateN m ++ [.fin256])

end Sys2Proof.Machine
end

