-- ==== Sys2Proof/Safety.lean ====
section
/-! DEFINITION. What claims are stated with: the invariant of the state (10_state.md R33), what the host
can tell two states apart by, runs of commands and of steps, and the message that a list of commands
carries (70_reset_and_hazards.md R193). -/

namespace Sys2Proof.Machine

/-- A response has its form (30_encoding.md R66): CODE is 0 exactly without error, DOUT is zero on an
error. -/
structure Response.Wf (r : Response) : Prop where
  code_iff : r.errf = true ↔ r.code ≠ none
  dout_zero : r.errf = true → r.dout = 0#256

/-- The invariant of the state (R33), and with it: BUFLEN is 0 outside ACTIVE (R25, R32, R148), the last
response has its form (R66), and a response with an error has left ERR set (R27). The last clause survives
a POR, which clears ERR, only because POR removes the response as well, which is the model's choice
(assumption 4, DESIGN CHOICE, unsafe). -/
structure State.Inv (s : State) : Prop where
  bufLen_le : s.buf.length ≤ 31
  errCode_iff : s.errCode = none ↔ s.err = false
  buf_empty : s.phase ≠ .active → s.buf = []
  rsp_wf : ∀ r, s.rsp = some r → r.Wf
  rsp_sticky : ∀ r, s.rsp = some r → r.errf = true → s.err = true

/-- Two states that differ at most in what the spec calls unspecified: the lane registers and the bytes
of BUF count only while PHASE is ACTIVE (R14, R26, R148, R191). -/
structure State.SameView (s t : State) : Prop where
  phase : s.phase = t.phase
  err : s.err = t.err
  errCode : s.errCode = t.errCode
  rsp : s.rsp = t.rsp
  host : s.host = t.host
  bufLen : s.buf.length = t.buf.length
  hash : s.phase = .active → s.lanes = t.lanes ∧ s.buf = t.buf

/-- Run a list of commands, already decoded, one after another. -/
def runInstrs : List Instr → State → Host.Outcome State Fault Refusal
  | [], s => .next s
  | i :: is, s =>
    match exec i s with
    | .next s' => runInstrs is s'
    | .fault f => .fault f
    | .refused r => .refused r

/-- Run `n` steps. -/
def runSteps : Nat → State → Host.Outcome State Fault Refusal
  | 0, s => .next s
  | n + 1, s =>
    match step s with
    | .next s' => runSteps n s'
    | .fault f => .fault f
    | .refused r => .refused r

/-- "ERRF = 0 in every response of the sequence" (60_exceptions.md R176): each of the next `n` steps leaves
a response without error. It is the premise of every claim about a digest. -/
def ErrorFree : Nat → State → Prop
  | 0, _ => True
  | n + 1, s =>
    ∃ (t : State) (r : Response), step s = .next t ∧ t.rsp = some r ∧ r.errf = false ∧ ErrorFree n t

/-- The same for a list of commands, already decoded (R176). -/
def InstrsErrorFree : List Instr → State → Prop
  | [], _ => True
  | i :: is, s =>
    ∃ (t : State) (r : Response),
      exec i s = .next t ∧ t.rsp = some r ∧ r.errf = false ∧ InstrsErrorFree is t

/-- The bytes that a command adds to the message of an ACTIVE core: the payload of an UPDATE, nothing
for any other command or non-command (R193). -/
def streamPayload (c : Command) : List Byte :=
  match decode c with
  | .instr (.update x) => x
  | _ => []

/-- The command neither starts nor ends a message: it is no RESET and no FIN (it may be an UPDATE, a
read-out, or a word that is no command). -/
def keepsStream (c : Command) : Bool :=
  match decode c with
  | .instr (.reset _) => false
  | .instr .fin64 => false
  | .instr .fin128 => false
  | .instr .fin256 => false
  | _ => true

/-- What a command that raises `c` leaves, written out from R174: ERR set, ERRCODE the first code since
POR, the error response, and everything else as it was. -/
def State.afterError (c : Cause) (s : State) : State :=
  { s with
    err := true
    errCode := if s.err = true then s.errCode else some c
    rsp := some ⟨true, some c, 0#256⟩ }

/-- `w` is the only command word with the operation code `op`: every other one is an IllegalCmd (R65). -/
def OnlyWord (op : BitVec 4) (w : BitVec 16) : Prop :=
  ∀ c : Command, cwOp c.cw = op → c.cw ≠ w → decode c = .illegalCmd

/-- The three commands that end a message (R145 to R147). -/
def finCommands : List Instr := [.fin64, .fin128, .fin256]

end Sys2Proof.Machine

namespace Sys2Proof

/-- The command needs the hash state (60_exceptions.md R172): UPDATE, FIN64, FIN128, FIN256, RDREG. -/
def Instr.needsActive : Instr → Bool
  | .reset _ => false
  | .update _ => true
  | .fin64 => true
  | .fin128 => true
  | .fin256 => true
  | .rdst => false
  | .rdreg _ => true

end Sys2Proof
end

