-- ==== Sys2Proof/Certificates/Slice0/Obligations.lean ====
section
/-! DEFINITION. The statements for the provers. Each docstring names the rule of spec/ that it formalises.
Free values (`State.fresh`, `Config.unspecifiedBlock`) appear in no conclusion: after a FIN command and
after POR nothing is said of the lane registers. -/

open Sys2Proof Sys2Proof.Machine

/-! ### The datapath (40_lane_ops.md) -/

/-- R82 to R89: the lane adder, the bitwise unit, the shifter, lane by lane, as exact arithmetic. -/
def Obligations.LaneArithmeticIsExactThenTruncated : Prop :=
  (∀ (a b : Vec4) (i : Nat), i < 4 →
      (laneOf (add4 a b) i).toNat = ((laneOf a i).toNat + (laneOf b i).toNat) % 2 ^ 64
      ∧ laneOf (xor4 a b) i = laneOf a i ^^^ laneOf b i
      ∧ laneOf (and4 a b) i = laneOf a i &&& laneOf b i
      ∧ laneOf (or4 a b) i = laneOf a i ||| laneOf b i)
  ∧ (∀ (a b c : Vec4) (i : Nat), i < 4 →
      laneOf (xor3 a b c) i = laneOf a i ^^^ laneOf b i ^^^ laneOf c i)
  ∧ (∀ (n : Fin 64) (v : Vec4) (i : Nat), i < 4 →
      (laneOf (shl4 n v) i).toNat = ((laneOf v i).toNat * 2 ^ n.val) % 2 ^ 64
      ∧ (laneOf (shr4 n v) i).toNat = (laneOf v i).toNat / 2 ^ n.val)
  ∧ (∀ v : Vec4, shiftLanesLeft1 v = ⟨0#64, laneOf v 0, 0#64, laneOf v 2⟩)

/-- R90: each 32-bit half of each lane rotates left by itself, by the count modulo 32. -/
def Obligations.Rot32RotatesEachHalfAlone : Prop :=
  ∀ (v : Vec4) (k i : Nat), i < 4 →
    (laneOf (rot32 v k) i).extractLsb' 0 32 = ((laneOf v i).extractLsb' 0 32).rotateLeft k
    ∧ (laneOf (rot32 v k) i).extractLsb' 32 32 = ((laneOf v i).extractLsb' 32 32).rotateLeft k

/-- R91: the index form, byte by byte, with the index vector written out; the lane form; and that ZIPPER
is a bijection and no involution. -/
def Obligations.ZipperPermutesBytesWithinHalves : Prop :=
  (∀ (v : Vec4) (h j : Nat), h < 2 → j < 16 →
      vecByte (zipper v) (16 * h + j)
        = vecByte v (16 * h + [3, 12, 2, 5, 14, 1, 15, 0, 11, 4, 10, 13, 9, 6, 8, 7].getD j 0))
  ∧ (∀ (v : Vec4) (h : Nat), h < 2 →
      let lo : Nat → Byte := fun k => (laneOf v (2 * h)).extractLsb' (8 * k) 8
      let hi : Nat → Byte := fun k => (laneOf v (2 * h + 1)).extractLsb' (8 * k) 8
      laneOf (zipper v) (2 * h) = lo 0 ++ hi 7 ++ lo 1 ++ hi 6 ++ lo 5 ++ lo 2 ++ hi 4 ++ lo 3
      ∧ laneOf (zipper v) (2 * h + 1) = lo 7 ++ hi 0 ++ lo 6 ++ hi 1 ++ hi 5 ++ hi 2 ++ lo 4 ++ hi 3)
  ∧ Function.Bijective zipper ∧ (∃ v : Vec4, zipper (zipper v) ≠ v)

/-- R92 and R93: the two permute engines move the 32-bit elements as listed, and both are involutions.
-/
def Obligations.PermuteEnginesMoveHalvesAndAreInvolutions : Prop :=
  (∀ (v : Vec4) (i : Nat), i < 4 →
      (laneOf (rot64by32 v) i).extractLsb' 0 32 = (laneOf v i).extractLsb' 32 32
      ∧ (laneOf (rot64by32 v) i).extractLsb' 32 32 = (laneOf v i).extractLsb' 0 32
      ∧ (laneOf (permute v) i).extractLsb' 0 32 = (laneOf v ((i + 2) % 4)).extractLsb' 32 32
      ∧ (laneOf (permute v) i).extractLsb' 32 32 = (laneOf v ((i + 2) % 4)).extractLsb' 0 32)
  ∧ (∀ v : Vec4, rot64by32 (rot64by32 v) = v)
  ∧ (∀ v : Vec4, permute (permute v) = v)

/-- R94: the exact product of the low half of one lane and the high half of the other. -/
def Obligations.Mul32IsTheExactProduct : Prop :=
  ∀ (a b : Vec4) (i : Nat), i < 4 →
    (laneOf (mul32 a b) i).toNat
      = ((laneOf a i).toNat % 2 ^ 32) * ((laneOf b i).toNat / 2 ^ 32)

/-- R95 and R96: the little-endian sum, the bytes of a vector, and each inverse to the other. -/
def Obligations.LoadPacketAndStoreVecAreInverse : Prop :=
  (∀ (p : List Byte) (i : Nat), p.length = 32 → i < 4 →
      (laneOf (loadPacket p) i).toNat
        = ∑ k ∈ Finset.range 8, (p.getD (8 * i + k) 0#8).toNat * 2 ^ (8 * k))
  ∧ (∀ (v : Vec4) (i k : Nat), i < 4 → k < 8 →
      (storeVec v).getD (8 * i + k) 0#8 = ((laneOf v i >>> (8 * k)) &&& 0xff#64).setWidth 8)
  ∧ (∀ v : Vec4, loadPacket (storeVec v) = v)
  ∧ (∀ p : List Byte, p.length = 32 → storeVec (loadPacket p) = p)

/-- R98: every 32-bit element of the vector equals `r`. -/
def Obligations.Broadcast32FillsEveryElement : Prop :=
  ∀ r i : Nat, r ≤ 31 → i < 4 →
    (laneOf (broadcast32 r) i).toNat = r * 2 ^ 32 + r
    ∧ (laneOf (broadcast32 r) i).extractLsb' 0 32 = BitVec.ofNat 32 r
    ∧ (laneOf (broadcast32 r) i).extractLsb' 32 32 = BitVec.ofNat 32 r

/-- R120: the six steps of the round, each reading the registers as the steps before it left them,
written out lane by lane; `z` and `z'` are taken from all four new lanes. -/
def Obligations.RoundEqualsItsPerLaneForm : Prop :=
  ∀ (a : Vec4) (b : LaneBlock),
    let w1 : Nat → U64 := fun i => laneOf b.v1 i + laneOf b.mul0 i + laneOf a i
    let m0 : Nat → U64 := fun i =>
      laneOf b.mul0 i ^^^ ((w1 i &&& 0xffffffff#64) * (laneOf b.v0 i >>> 32))
    let w0 : Nat → U64 := fun i => laneOf b.v0 i + laneOf b.mul1 i
    let m1 : Nat → U64 := fun i =>
      laneOf b.mul1 i ^^^ ((w0 i &&& 0xffffffff#64) * (w1 i >>> 32))
    let z : Vec4 := zipper ⟨w1 0, w1 1, w1 2, w1 3⟩
    let u0 : Nat → U64 := fun i => w0 i + laneOf z i
    let z' : Vec4 := zipper ⟨u0 0, u0 1, u0 2, u0 3⟩
    ∀ i : Nat, i < 4 →
      laneOf (hashRound a b).mul0 i = m0 i
      ∧ laneOf (hashRound a b).mul1 i = m1 i
      ∧ laneOf (hashRound a b).v0 i = u0 i
      ∧ laneOf (hashRound a b).v1 i = w1 i + laneOf z' i

/-- R127: byte `k` of the remainder packet, for every remainder of 1 to 31 bytes and every `k`, and
that every byte of the remainder reaches the packet. -/
def Obligations.RemainderPacketHasTheListedBytes : Prop :=
  ∀ p : List Byte, 1 ≤ p.length → p.length ≤ 31 →
    let r := p.length
    let r4 := r - r % 4
    let t := r % 4
    (remainderPacket p).length = 32
    ∧ (∀ k : Nat, k < r4 → (remainderPacket p).getD k 0#8 = p.getD k 0#8)
    ∧ (16 ≤ r → (∀ k : Nat, r4 ≤ k → k < 28 → (remainderPacket p).getD k 0#8 = 0#8)
        ∧ ∀ k : Nat, k < 4 → (remainderPacket p).getD (28 + k) 0#8 = p.getD (r - 4 + k) 0#8)
    ∧ (r < 16 → (∀ k : Nat, r4 ≤ k → k < 16 → (remainderPacket p).getD k 0#8 = 0#8)
        ∧ (∀ k : Nat, 19 ≤ k → k < 32 → (remainderPacket p).getD k 0#8 = 0#8)
        ∧ (remainderPacket p).getD 16 0#8 = (if t = 0 then 0#8 else p.getD r4 0#8)
        ∧ (remainderPacket p).getD 17 0#8 = (if t = 0 then 0#8 else p.getD (r4 + t / 2) 0#8)
        ∧ (remainderPacket p).getD 18 0#8 = (if t = 0 then 0#8 else p.getD (r4 + t - 1) 0#8))
    ∧ (∀ j : Nat, j < r → ∃ k : Nat, k < 32 ∧ (remainderPacket p).getD k 0#8 = p.getD j 0#8)

/-- R128: the length is added to every lane of `v0` as `r · 2^32 + r` modulo 2^64 and rotates every
32-bit half of `v1`, and then one round runs with the remainder packet. -/
def Obligations.RemainderMixesTheLengthThenRunsOneRound : Prop :=
  ∀ (p : List Byte) (b : LaneBlock), 1 ≤ p.length → p.length ≤ 31 →
    ∃ v0 v1 : Vec4,
      remainder p b = hashRound (loadPacket (remainderPacket p)) ⟨v0, v1, b.mul0, b.mul1⟩
      ∧ ∀ i : Nat, i < 4 →
        (laneOf v0 i).toNat
            = ((laneOf b.v0 i).toNat + (p.length * 2 ^ 32 + p.length)) % 2 ^ 64
        ∧ laneOf v1 i
            = ((laneOf b.v1 i).extractLsb' 32 32).rotateLeft p.length
              ++ ((laneOf b.v1 i).extractLsb' 0 32).rotateLeft p.length

/-- R140 and R142: the partial-packet handler exactly when BUF is not empty, then `k` times one round
with the permuted `v0`. -/
def Obligations.FinPrepIsHandlerThenIteratedPermuteUpdate : Prop :=
  ∀ (k : Nat) (buf : List Byte) (b : LaneBlock),
    finPrep k buf b
      = (fun c : LaneBlock => hashRound (permute c.v0) c)^[k] (if buf = [] then b else remainder buf b)

/-- MODRED (R143) as the reduction of `H · x^128 + Lo` over GF(2) with `x^128 ≡ x^2 + x`, the two top
bits of `a3_raw` dropped: the reading that the spec derives from the formula ("Read as polynomials over
GF(2)"). -/
def Obligations.ModredReducesThePolynomial : Prop :=
  ∀ a3raw a2 a1 a0 : U64,
    let h : BitVec 128 := (a3raw &&& 0x3fffffffffffffff#64) ++ a2
    let lo : BitVec 128 := a1 ++ a0
    (modred a3raw a2 a1 a0).1 ++ (modred a3raw a2 a1 a0).2 = lo ^^^ (h <<< 1) ^^^ (h <<< 2)

/-- R144: the vector form that the datapath computes gives the two halves of R143 (the spec derives it
from R143). -/
def Obligations.VectorModredEqualsTwoHalves : Prop :=
  ∀ a01 a23 : Vec4,
    modredVec a01 a23
      = ⟨(modred a23.l1 a23.l0 a01.l1 a01.l0).2, (modred a23.l1 a23.l0 a01.l1 a01.l0).1,
         (modred a23.l3 a23.l2 a01.l3 a01.l2).2, (modred a23.l3 a23.l2 a01.l3 a01.l2).1⟩

/-! ### Encoding (30_encoding.md) -/

/-- R61, R63: command words written out from the tables decode to what they stand for (sanity). -/
def Obligations.WordsOfTheOpcodeMapDecode : Prop :=
  decode ⟨0x0001#16, 0#256⟩ = .instr (.reset ⟨0#64, 0#64, 0#64, 0#64⟩)
  ∧ decode ⟨0x0012#16, 0xee7f#256⟩ = .instr (.update [0x7f#8])
  ∧ decode ⟨0x0004#16, 0#256⟩ = .instr .fin64
  ∧ decode ⟨0x0005#16, 0#256⟩ = .instr .fin128
  ∧ decode ⟨0x0006#16, 0#256⟩ = .instr .fin256
  ∧ decode ⟨0x0008#16, 0#256⟩ = .instr .rdst
  ∧ decode ⟨0x0809#16, 0#256⟩ = .instr (.rdreg .mul0)
  ∧ decode ⟨0x0000#16, 0#256⟩ = .illegalCmd
  ∧ decode ⟨0x0212#16, 0#256⟩ = .badLength
  ∧ decode ⟨0x1212#16, 0#256⟩ = .illegalCmd

/-- R65: the three answers of the decoder, by the fields of the word and by the rows of R63. -/
def Obligations.DecoderAnswersByFieldsAndByRows : Prop :=
  ∀ c : Command,
    (decode c = .illegalCmd ↔
      (cwOp c.cw ∈ [0x0#4, 0x3#4, 0x7#4, 0xa#4, 0xb#4, 0xc#4, 0xd#4, 0xe#4, 0xf#4]
        ∨ cwRsv c.cw ≠ 0#4
        ∨ (cwNb c.cw ≠ 0#6 ∧ cwOp c.cw ≠ 0x2#4)
        ∨ (cwSel c.cw ≠ 0#2 ∧ cwOp c.cw ≠ 0x9#4)))
    ∧ (decode c = .illegalCmd ↔ ∀ r ∈ opRows, c.cw &&& r.mask ≠ r.pattern)
    ∧ (decode c = .badLength ↔ c.cw &&& 0xfc0f#16 = 0x0002#16 ∧ 33 ≤ (cwNb c.cw).toNat)
    ∧ (∀ i : Instr, decode c = .instr i →
        ∃ r ∈ opRows, c.cw &&& r.mask = r.pattern ∧ r.op = i.op
          ∧ ∀ r' ∈ opRows, c.cw &&& r'.mask = r'.pattern → r' = r)

/-- Every well-formed command survives encoding and decoding, with every operand. -/
def Obligations.DecodeOfEncodeIsTheCommand : Prop :=
  ∀ i : Instr, i.wellFormed = true → decode (encode i) = .instr i

/-- The other direction: a decoded command is well formed and encodes to the very command word it was
read from; only ignored DIN bits are lost. -/
def Obligations.EncodeOfDecodeIsTheCommandWord : Prop :=
  ∀ (c : Command) (i : Instr), decode c = .instr i →
    i.wellFormed = true ∧ (encode i).cw = c.cw ∧ decode (encode i) = .instr i

/-- R62: which part of DIN a command uses. DIN is ignored in formats C0 and CR and in a word that is
no command; RESET uses all of it; UPDATE uses bytes 0 to NB - 1 and ignores the others. -/
def Obligations.DinIsUsedAsTheFormatSays : Prop :=
  ∀ (cw : BitVec 16) (d d' : Port),
    (cwOp cw ≠ 0x1#4 → cwOp cw ≠ 0x2#4 → decode ⟨cw, d⟩ = decode ⟨cw, d'⟩)
    ∧ ((∀ i : Instr, decode ⟨cw, d⟩ ≠ .instr i) → decode ⟨cw, d'⟩ = decode ⟨cw, d⟩)
    ∧ (decode ⟨0x0001#16, d⟩ = decode ⟨0x0001#16, d'⟩ ↔ d = d')
    ∧ (∀ nb : BitVec 6, nb.toNat ≤ 32 →
        (decode ⟨cwWord 0x2#4 nb 0#2, d⟩ = decode ⟨cwWord 0x2#4 nb 0#2, d'⟩ ↔
          ∀ j : Nat, j < nb.toNat → d.extractLsb' (8 * j) 8 = d'.extractLsb' (8 * j) 8))

/-- R64: NB and SEL are the unsigned values of their fields; a decoded command carries the key, the
payload or the vector number that its DIN and fields give; key lanes and payload bytes read as bit
slices are those read through MemRead. -/
def Obligations.OperandsAreLittleEndianReadsOfDin : Prop :=
  (∀ cw : BitVec 16, (cwNb cw).toNat = cw.toNat / 2 ^ 4 % 2 ^ 6
      ∧ (cwSel cw).toNat = cw.toNat / 2 ^ 10 % 2 ^ 2)
  ∧ (∀ (c : Command) (key : Vec4), decode c = .instr (.reset key) → ∀ i : Nat, i < 4 →
      laneOf key i = c.din.extractLsb' (64 * i) 64
      ∧ (laneOf key i).toNat = memRead (portBytes c.din) (8 * i) 8)
  ∧ (∀ (c : Command) (x : List Byte), decode c = .instr (.update x) →
      x.length = (cwNb c.cw).toNat
      ∧ ∀ j : Nat, j < x.length →
        x.getD j 0#8 = c.din.extractLsb' (8 * j) 8
        ∧ (x.getD j 0#8).toNat = memRead (portBytes c.din) j 1)
  ∧ (∀ (c : Command) (sel : VecSel), decode c = .instr (.rdreg sel) → VecSel.toBits sel = cwSel c.cw)

/-- R60: the 34 bytes of a command, low byte of CW first, and back. -/
def Obligations.CommandBytesRoundTrip : Prop :=
  (∀ c : Command, c.toBytes.length = 34 ∧ Command.ofBytes c.toBytes = some c
      ∧ c.toBytes.getD 0 0#8 = c.cw.extractLsb' 0 8
      ∧ c.toBytes.getD 1 0#8 = c.cw.extractLsb' 8 8
      ∧ ∀ j : Nat, j < 32 → c.toBytes.getD (2 + j) 0#8 = c.din.extractLsb' (8 * j) 8)
  ∧ (∀ (p : List Byte) (c : Command), Command.ofBytes p = some c → c.toBytes = p)

/-- R70: UPDATEN cuts a byte string into well-formed UPDATE commands whose payloads join to it, as many
as `ceil(n/32)`. -/
def Obligations.UpdateNCutsIntoPackets : Prop :=
  ∀ m : List Byte,
    ∃ xs : List (List Byte), updateN m = xs.map Instr.update
      ∧ xs.flatten = m
      ∧ xs.length = (m.length + 31) / 32
      ∧ (∀ j : Nat, j < m.length / 32 → (xs.getD j []).length = 32)
      ∧ (m.length % 32 ≠ 0 → (xs.getD (m.length / 32) []).length = m.length % 32)

/-! ### One step, one command -/

/-- R67, R47: a step takes the host's next move; a decoded command is run by `exec` at the state with
that move taken, a rejected one raises its error, and with no move the core waits (the waiting is the
model's choice, assumption 3). A table word put at the port is run as it decodes (the port stands for
the host, assumption 5). -/
def Obligations.StepRunsTheDecodedCommand : Prop :=
  (∀ (s : State) (c : Command) (rest : List HostEvent) (i : Instr),
      s.host = .command c :: rest → decode c = .instr i → step s = exec i { s with host := rest })
  ∧ (∀ (s : State) (c : Command) (rest : List HostEvent),
      s.host = .command c :: rest → decode c = .illegalCmd →
        step s = .next (State.afterError .illegalCmd { s with host := rest }))
  ∧ (∀ (s : State) (c : Command) (rest : List HostEvent),
      s.host = .command c :: rest → decode c = .badLength →
        step s = .next (State.afterError .badLength { s with host := rest }))
  ∧ (∀ s : State, s.host = [] → step s = .next s)
  ∧ (∀ (s : State) (nbits w : Nat) (i : Instr),
      decodeTableWord nbits w = some i → step (s.withFetchWord nbits w) = exec i s)

/-- R66: every command, legal or not, is answered by one response. Without error ERRF and CODE are 0,
and DOUT is zero for RESET and UPDATE; with an error CODE is not 0 and DOUT is zero. Written as bytes a
response is 33 bytes, the first of them `(CODE << 1) | ERRF`. -/
def Obligations.EveryCommandIsAnswered : Prop :=
  (∀ (s : State) (c : Command) (rest : List HostEvent), s.host = .command c :: rest →
      ∃ (t : State) (r : Response), step s = .next t ∧ t.rsp = some r ∧ t.host = rest
        ∧ (r.errf = false → r.code = none)
        ∧ (r.errf = true → r.code ≠ none ∧ r.dout = 0#256)
        ∧ (∀ key : Vec4, decode c = .instr (.reset key) → r.errf = false ∧ r.dout = 0#256)
        ∧ (∀ x : List Byte, decode c = .instr (.update x) → r.dout = 0#256))
  ∧ (∀ r : Response, r.toBytes.length = 33
      ∧ r.toBytes.getD 0 0#8 = ((codeBits r.code).setWidth 8 <<< 1) ||| (if r.errf then 1#8 else 0#8)
      ∧ ∀ j : Nat, j < 32 → r.toBytes.getD (1 + j) 0#8 = r.dout.extractLsb' (8 * j) 8)

/-- THE MODEL'S CHOICE in two of its cases: a step from any state answers a next state. That a core to
which nothing is presented has a step at all is assumption 3 (DESIGN CHOICE); that an error is a next state
and no fault is assumption 6 (DEDUCED from R174 and R175, where R176 speaks of a fault). -/
def Obligations.NoStepStops : Prop := ∀ s : State, ∃ t : State, step s = .next t

/-! ### The commands: results and frames -/

/-- R111 with the constants of R110: RESET in every phase, all that it writes and all that it leaves;
0x0001 is its only word. -/
def Obligations.ResetLoadsTheKeyInEveryPhase : Prop :=
  (∀ (key : Vec4) (s : State),
    exec (.reset key) s = .next
      { s with
        lanes :=
          { v0 := ⟨key.l0 ^^^ 0xdbe6d5d5fe4cce2f#64, key.l1 ^^^ 0xa4093822299f31d0#64,
                   key.l2 ^^^ 0x13198a2e03707344#64, key.l3 ^^^ 0x243f6a8885a308d3#64⟩
            v1 := ⟨((key.l0 >>> 32) ||| (key.l0 <<< 32)) ^^^ 0x3bd39e10cb0ef593#64,
                   ((key.l1 >>> 32) ||| (key.l1 <<< 32)) ^^^ 0xc0acf169b5f18a8c#64,
                   ((key.l2 >>> 32) ||| (key.l2 <<< 32)) ^^^ 0xbe5466cf34e90c6c#64,
                   ((key.l3 >>> 32) ||| (key.l3 <<< 32)) ^^^ 0x452821e638d01377#64⟩
            mul0 := ⟨0xdbe6d5d5fe4cce2f#64, 0xa4093822299f31d0#64,
                     0x13198a2e03707344#64, 0x243f6a8885a308d3#64⟩
            mul1 := ⟨0x3bd39e10cb0ef593#64, 0xc0acf169b5f18a8c#64,
                     0xbe5466cf34e90c6c#64, 0x452821e638d01377#64⟩ }
        buf := []
        phase := .active
        rsp := some ⟨false, none, 0#256⟩ })
  ∧ (∀ din : Port, decode ⟨0x0001#16, din⟩
      = .instr (.reset ⟨din.extractLsb' 0 64, din.extractLsb' 64 64,
                        din.extractLsb' 128 64, din.extractLsb' 192 64⟩))
  ∧ OnlyWord 0x1#4 0x0001#16

/-- R112, which the spec derives from R111: two cores RESET with the same key agree on the hash state
and on all four read-outs. -/
def Obligations.ResetIsIdempotent : Prop :=
  ∀ (key : Vec4) (s t : State),
    ∃ s' t' : State, exec (.reset key) s = .next s' ∧ exec (.reset key) t = .next t'
      ∧ s'.lanes = t'.lanes ∧ s'.buf = t'.buf ∧ bufLen s' = bufLen t' ∧ s'.phase = t'.phase
      ∧ ∀ sel : VecSel, ∃ a b : State,
          exec (.rdreg sel) s' = .next a ∧ exec (.rdreg sel) t' = .next b ∧ a.rsp = b.rsp

/-- R113, which the spec derives from R111: the key can be read back from `v0`, different keys give
different `(v0, v1)`, and `mul0` and `mul1` do not depend on the key. -/
def Obligations.ResetMapIsInjective : Prop :=
  ∀ (k k' : Vec4) (s t t' : State), exec (.reset k) s = .next t → exec (.reset k') s = .next t' →
    xor4 t.lanes.v0 constMul0 = k
    ∧ (t.lanes.v0 = t'.lanes.v0 → t.lanes.v1 = t'.lanes.v1 → k = k')
    ∧ t.lanes.mul0 = t'.lanes.mul0 ∧ t.lanes.mul1 = t'.lanes.mul1

/-- R124: UPDATE in phase ACTIVE, the two cases, with everything it leaves; SeqError in the other
phases; and which words with its operation code are errors. -/
def Obligations.UpdateAppendsAndConsumesOnePacket : Prop :=
  (∀ (x : List Byte) (s : State), x.length ≤ 32 → s.phase = .active →
      ((s.buf ++ x).length < 32 →
        exec (.update x) s = .next
          { s with
            buf := s.buf ++ x
            rsp := some ⟨false, none, 0#256⟩ })
      ∧ (32 ≤ (s.buf ++ x).length →
        exec (.update x) s = .next
          { s with
            lanes := hashRound (loadPacket ((s.buf ++ x).take 32)) s.lanes
            buf := (s.buf ++ x).drop 32
            rsp := some ⟨false, none, 0#256⟩ }))
  ∧ (∀ (x : List Byte) (s : State), x.length ≤ 32 → s.phase ≠ .active →
      exec (.update x) s = .next (State.afterError .seqError s))
  ∧ (∀ c : Command, cwOp c.cw = 0x2#4 →
      ((cwSel c.cw ≠ 0#2 ∨ cwRsv c.cw ≠ 0#4) → decode c = .illegalCmd)
      ∧ (cwSel c.cw = 0#2 → cwRsv c.cw = 0#4 → 33 ≤ (cwNb c.cw).toNat → decode c = .badLength)
      ∧ (cwSel c.cw = 0#2 → cwRsv c.cw = 0#4 → (cwNb c.cw).toNat ≤ 32 →
          ∃ x : List Byte, decode c = .instr (.update x) ∧ x.length = (cwNb c.cw).toNat))

/-- R25: UPDATE writes `(BUFLEN + NB) mod 32` to BUFLEN, and BUF never holds a whole packet. -/
def Obligations.UpdateAddsToBufLenModulo32 : Prop :=
  ∀ (x : List Byte) (s : State), x.length ≤ 32 → s.buf.length ≤ 31 → s.phase = .active →
    ∃ t : State, exec (.update x) s = .next t
      ∧ (bufLen t).toNat = ((bufLen s).toNat + x.length) % 32
      ∧ t.buf.length = (bufLen t).toNat

/-- R125: UPDATE with no bytes. -/
def Obligations.EmptyUpdateChangesNothing : Prop :=
  (∀ s : State, s.buf.length ≤ 31 → s.phase = .active →
      exec (.update []) s = .next { s with rsp := some ⟨false, none, 0#256⟩ })
  ∧ (∀ s : State, s.phase ≠ .active →
      exec (.update []) s = .next (State.afterError .seqError s))

/-- R145: FIN64, its digest, what it writes and what it leaves; SeqError outside ACTIVE; its word. -/
def Obligations.Fin64ReturnsTheSumOfLaneZero : Prop :=
  (∀ s : State, s.phase = .active →
      let b := finPrep 4 s.buf s.lanes
      ∃ t : State, exec .fin64 s = .next t
        ∧ t.rsp = some ⟨false, none, BitVec.ofNat 256
            ((b.v0.l0.toNat + b.v1.l0.toNat + b.mul0.l0.toNat + b.mul1.l0.toNat) % 2 ^ 64)⟩
        ∧ t.phase = .done ∧ t.buf = []
        ∧ t.err = s.err ∧ t.errCode = s.errCode ∧ t.host = s.host)
  ∧ (∀ s : State, s.phase ≠ .active → exec .fin64 s = .next (State.afterError .seqError s))
  ∧ (∀ din : Port, decode ⟨0x0004#16, din⟩ = .instr .fin64) ∧ OnlyWord 0x4#4 0x0004#16

/-- R146: FIN128, in the same way. -/
def Obligations.Fin128ReturnsTwoLaneSums : Prop :=
  (∀ s : State, s.phase = .active →
      let b := finPrep 6 s.buf s.lanes
      ∃ (t : State) (dout : Port), exec .fin128 s = .next t ∧ t.rsp = some ⟨false, none, dout⟩
        ∧ dout.extractLsb' 0 64 = b.v0.l0 + b.mul0.l0 + b.v1.l2 + b.mul1.l2
        ∧ dout.extractLsb' 64 64 = b.v0.l1 + b.mul0.l1 + b.v1.l3 + b.mul1.l3
        ∧ dout.extractLsb' 128 128 = 0#128
        ∧ t.phase = .done ∧ t.buf = []
        ∧ t.err = s.err ∧ t.errCode = s.errCode ∧ t.host = s.host)
  ∧ (∀ s : State, s.phase ≠ .active → exec .fin128 s = .next (State.afterError .seqError s))
  ∧ (∀ din : Port, decode ⟨0x0005#16, din⟩ = .instr .fin128) ∧ OnlyWord 0x5#4 0x0005#16

/-- R147: FIN256, in the same way; the digest is the modular reduction, half by half, and DOUT is what
four MemWrites put there. -/
def Obligations.Fin256ReturnsTheReducedSums : Prop :=
  (∀ s : State, s.phase = .active →
      let b := finPrep 10 s.buf s.lanes
      let a01 := add4 b.v0 b.mul0
      let a23 := add4 b.v1 b.mul1
      let half0 := modred a23.l1 a23.l0 a01.l1 a01.l0
      let half1 := modred a23.l3 a23.l2 a01.l3 a01.l2
      ∃ (t : State) (dout : Port), exec .fin256 s = .next t ∧ t.rsp = some ⟨false, none, dout⟩
        ∧ dout.extractLsb' 0 64 = half0.2 ∧ dout.extractLsb' 64 64 = half0.1
        ∧ dout.extractLsb' 128 64 = half1.2 ∧ dout.extractLsb' 192 64 = half1.1
        ∧ t.phase = .done ∧ t.buf = []
        ∧ t.err = s.err ∧ t.errCode = s.errCode ∧ t.host = s.host)
  ∧ (∀ s : State, s.phase ≠ .active → exec .fin256 s = .next (State.afterError .seqError s))
  ∧ (∀ din : Port, decode ⟨0x0006#16, din⟩ = .instr .fin256) ∧ OnlyWord 0x6#4 0x0006#16

/-- R43: the digest outputs as MemWrites on a zero DOUT, at offsets 0, 8, 16, 24. -/
def Obligations.DigestsAreMemWritesOnZeroDout : Prop :=
  ∀ b : LaneBlock,
    portBytes (extract64 b)
      = memWrite (List.replicate 32 0#8) 0 8 (b.v0.l0 + b.v1.l0 + b.mul0.l0 + b.mul1.l0).toNat
    ∧ portBytes (extract128 b)
      = memWrite (memWrite (List.replicate 32 0#8) 0 8
            (b.v0.l0 + b.mul0.l0 + b.v1.l2 + b.mul1.l2).toNat)
          8 8 (b.v0.l1 + b.mul0.l1 + b.v1.l3 + b.mul1.l3).toNat
    ∧ portBytes (extract256 b)
      = (let hash := modredVec (add4 b.v0 b.mul0) (add4 b.v1 b.mul1)
         memWrite (memWrite (memWrite (memWrite (List.replicate 32 0#8)
           0 8 hash.l0.toNat) 8 8 hash.l1.toNat) 16 8 hash.l2.toNat) 24 8 hash.l3.toNat)

/-- R149: a FIN in phase UNINIT or DONE is a SeqError without a digest, and nothing else changes; in
particular a second FIN, of the same or another width. -/
def Obligations.FinOutsideActiveIsSeqError : Prop :=
  (∀ f ∈ finCommands, ∀ s : State, s.phase ≠ .active →
    exec f s = .next (State.afterError .seqError s))
  ∧ (∀ f ∈ finCommands, ∀ g ∈ finCommands, ∀ s : State, s.phase = .active →
    ∃ t : State, exec f s = .next t ∧ exec g t = .next (State.afterError .seqError t))

/-- R29: every field of STATUS, the hardwired zeros included. -/
def Obligations.StatusFieldsAreTheState : Prop :=
  ∀ s : State,
    (status s).extractLsb' 0 2
        = (match s.phase with | .uninit => 0#2 | .active => 1#2 | .done => 2#2)
    ∧ (status s).getLsbD 2 = s.err
    ∧ (status s).extractLsb' 3 3
        = (match s.errCode with
           | none => 0#3 | some .illegalCmd => 1#3 | some .badLength => 2#3 | some .seqError => 3#3)
    ∧ (status s).extractLsb' 6 2 = 0#2
    ∧ (status s).extractLsb' 8 5 = BitVec.ofNat 5 s.buf.length
    ∧ (status s).extractLsb' 13 19 = 0#19

/-- R160: RDST in every phase, STATUS written as the sum of shifted fields; nothing but the response
changes; its word. -/
def Obligations.RdstReturnsStatus : Prop :=
  (∀ s : State, s.buf.length ≤ 31 →
    exec .rdst s = .next
      { s with
        rsp := some ⟨false, none, BitVec.ofNat 256
          ((match s.phase with | .uninit => 0 | .active => 1 | .done => 2)
            + 4 * (if s.err then 1 else 0)
            + 8 * (match s.errCode with
                   | none => 0 | some .illegalCmd => 1 | some .badLength => 2 | some .seqError => 3)
            + 256 * s.buf.length)⟩ })
  ∧ (∀ din : Port, decode ⟨0x0008#16, din⟩ = .instr .rdst) ∧ OnlyWord 0x8#4 0x0008#16

/-- R162: RDREG in phase ACTIVE shows one lane vector, as 32 bytes of the record; SeqError in the other
phases; its four words. -/
def Obligations.RdregReturnsTheSelectedVector : Prop :=
  (∀ (sel : VecSel) (s : State), s.phase = .active →
      let v : Vec4 := (match sel with
        | .v0 => s.lanes.v0 | .v1 => s.lanes.v1 | .mul0 => s.lanes.mul0 | .mul1 => s.lanes.mul1)
      exec (.rdreg sel) s = .next
        { s with rsp := some ⟨false, none, v.l3 ++ v.l2 ++ v.l1 ++ v.l0⟩ }
      ∧ portBytes (v.l3 ++ v.l2 ++ v.l1 ++ v.l0) = storeVec v
      ∧ storeVec v = ((record s.lanes).drop (32 * (VecSel.toBits sel).toNat)).take 32)
  ∧ (∀ (sel : VecSel) (s : State), s.phase ≠ .active →
      exec (.rdreg sel) s = .next (State.afterError .seqError s))
  ∧ (∀ din : Port, decode ⟨0x0009#16, din⟩ = .instr (.rdreg .v0)
      ∧ decode ⟨0x0409#16, din⟩ = .instr (.rdreg .v1)
      ∧ decode ⟨0x0809#16, din⟩ = .instr (.rdreg .mul0)
      ∧ decode ⟨0x0c09#16, din⟩ = .instr (.rdreg .mul1))
  ∧ (∀ c : Command, cwOp c.cw = 0x9#4 → (cwNb c.cw ≠ 0#6 ∨ cwRsv c.cw ≠ 0#4) →
      decode c = .illegalCmd)

/-- R22: the byte offsets of the sixteen lane registers in the record, and the 32 bytes of it that each
RDREG shows. -/
def Obligations.RecordLayoutIsLittleEndianByField : Prop :=
  (∀ (b : LaneBlock) (i : Nat), i < 4 →
    (record b).length = 128
    ∧ memRead (record b) (0x00 + 8 * i) 8 = (laneOf b.v0 i).toNat
    ∧ memRead (record b) (0x20 + 8 * i) 8 = (laneOf b.v1 i).toNat
    ∧ memRead (record b) (0x40 + 8 * i) 8 = (laneOf b.mul0 i).toNat
    ∧ memRead (record b) (0x60 + 8 * i) 8 = (laneOf b.mul1 i).toNat)
  ∧ (∀ (sel : VecSel) (s : State), s.phase = .active →
      ∃ (t : State) (dout : Port), exec (.rdreg sel) s = .next t ∧ t.rsp = some ⟨false, none, dout⟩
        ∧ portBytes dout = ((record s.lanes).drop (32 * (VecSel.toBits sel).toNat)).take 32)

/-- R161, which the spec derives from R160 and R162: an admitted read-out can be repeated with the
same answer, and every command after it behaves as if it had not been issued. -/
def Obligations.ReadoutsHaveNoSideEffect : Prop :=
  ∀ (ro : Instr) (s t : State),
    (ro = .rdst ∨ (∃ sel : VecSel, ro = .rdreg sel) ∧ s.phase = .active) →
    exec ro s = .next t →
      exec ro t = .next t ∧ ∀ i : Instr, exec i t = exec i s

/-! ### Errors, phase, privilege of the phase check -/

/-- R174: raising an error, with ERRCODE kept when ERR was already set. -/
def Obligations.RaiseRecordsTheFirstCodeAndNothingElse : Prop :=
  ∀ (c : Cause) (s : State),
    raise c s = .next
      { s with
        err := true
        errCode := if s.err = false then some c else s.errCode
        rsp := some ⟨true, some c, 0#256⟩ }

/-- R172: the table of the phase check. An admitted well-formed command completes without error, in
every phase for RESET and RDST and in ACTIVE for the others; any other is a SeqError and no more. -/
def Obligations.PhaseCheckAdmitsOrRaisesSeqError : Prop :=
  ∀ (i : Instr) (s : State), i.wellFormed = true →
    ((i.needsActive = false ∨ s.phase = .active) →
      ∃ (t : State) (dout : Port), exec i s = .next t ∧ t.rsp = some ⟨false, none, dout⟩
        ∧ t.err = s.err ∧ t.errCode = s.errCode ∧ t.host = s.host)
    ∧ (i.needsActive = true → s.phase ≠ .active →
      exec i s = .next (State.afterError .seqError s))

/-- R173: one error at most, the first of IllegalCmd, BadLength, SeqError, stated on the fields of the
command word and the phase. -/
def Obligations.FirstApplicableErrorIsReported : Prop :=
  ∀ (s : State) (c : Command) (rest : List HostEvent), s.host = .command c :: rest →
    let illegal : Prop := ∀ r ∈ opRows, c.cw &&& r.mask ≠ r.pattern
    let tooLong : Prop := cwOp c.cw = 0x2#4 ∧ 33 ≤ (cwNb c.cw).toNat
    let needs : Prop := cwOp c.cw ∈ [0x2#4, 0x4#4, 0x5#4, 0x6#4, 0x9#4]
    (illegal → step s = .next (State.afterError .illegalCmd { s with host := rest }))
    ∧ (¬ illegal → tooLong → step s = .next (State.afterError .badLength { s with host := rest }))
    ∧ (¬ illegal → ¬ tooLong → needs → s.phase ≠ .active →
        step s = .next (State.afterError .seqError { s with host := rest }))
    ∧ (¬ illegal → ¬ tooLong → (¬ needs ∨ s.phase = .active) →
        ∃ (t : State) (dout : Port), step s = .next t ∧ t.rsp = some ⟨false, none, dout⟩)

/-- R175: whatever command was rejected, the hash state is as before it, and the error record and the
response are all that changed. -/
def Obligations.RejectedCommandLeavesTheHashState : Prop :=
  ∀ (s t : State) (c : Command) (rest : List HostEvent) (r : Response),
    s.host = .command c :: rest → step s = .next t → t.rsp = some r → r.errf = true →
      ∃ e : Cause, r.code = some e ∧ r.dout = 0#256
        ∧ t = State.afterError e { s with host := rest }

/-- R27: ERR and ERRCODE are sticky. No step but POR clears ERR or changes the first code, POR clears
both, a step sets ERR only with a response that carries the error, and no command but RDST does anything
that depends on them. -/
def Obligations.ErrorFlagIsStickyUntilPor : Prop :=
  (∀ s t : State, step s = .next t → (∀ rest : List HostEvent, s.host ≠ .por :: rest) →
    (s.err = true → t.err = true ∧ t.errCode = s.errCode)
    ∧ (s.err = false → t.err = true →
        ∃ r : Response, t.rsp = some r ∧ r.errf = true ∧ t.errCode = r.code)
    ∧ (s.err = false → t.err = false → t.errCode = s.errCode))
  ∧ (∀ (s : State) (rest : List HostEvent), s.host = .por :: rest →
      ∃ t : State, step s = .next t ∧ t.err = false ∧ t.errCode = none)
  ∧ (∀ (i : Instr) (s : State) (e : Bool) (ec : Option Cause), i ≠ .rdst →
      ∃ t u : State, exec i s = .next t ∧ exec i { s with err := e, errCode := ec } = .next u
        ∧ { t with err := e, errCode := ec } = { u with err := e, errCode := ec })

/-- R26: which moves write PHASE, and what they write: RESET enters ACTIVE, a FIN without error enters
DONE, POR enters UNINIT, and no other move changes PHASE. -/
def Obligations.OnlyResetFinAndPorWritePhase : Prop :=
  (∀ s t : State, step s = .next t → t.phase ≠ s.phase →
    (∃ rest : List HostEvent, s.host = .por :: rest ∧ t.phase = .uninit)
    ∨ (∃ (c : Command) (rest : List HostEvent) (key : Vec4),
        s.host = .command c :: rest ∧ decode c = .instr (.reset key) ∧ t.phase = .active)
    ∨ (∃ (c : Command) (rest : List HostEvent) (f : Instr), f ∈ finCommands ∧ s.phase = .active
        ∧ s.host = .command c :: rest ∧ decode c = .instr f ∧ t.phase = .done))
  ∧ (∀ (s : State) (rest : List HostEvent), s.host = .por :: rest →
      ∃ t : State, step s = .next t ∧ t.phase = .uninit)
  ∧ (∀ (key : Vec4) (s : State), ∃ t : State, exec (.reset key) s = .next t ∧ t.phase = .active)
  ∧ (∀ f ∈ finCommands, ∀ s : State, s.phase = .active →
      ∃ t : State, exec f s = .next t ∧ t.phase = .done)

/-! ### Power-on reset and the invariant -/

/-- R190: POR as a step from any state, and the state after reset, with the values of R32. Nothing is
said of the lane registers, which it leaves unspecified. -/
def Obligations.PorSetsTheControlState : Prop :=
  (∀ (s : State) (rest : List HostEvent), s.host = .por :: rest →
      ∃ t : State, step s = .next t ∧ t.phase = .uninit ∧ t.err = false ∧ t.errCode = none
        ∧ bufLen t = 0#5 ∧ status t = 0#32)
  ∧ State.reset.phase = .uninit ∧ State.reset.err = false ∧ State.reset.errCode = none
  ∧ bufLen State.reset = 0#5 ∧ status State.reset = 0#32

/-- The invariant (R33, derived in the spec, and what Safety.lean adds to it from R25, R27, R32, R66 and
R148) holds after reset; that no response stands there is THE MODEL'S CHOICE (assumption 4, DESIGN CHOICE,
unsafe). -/
def Obligations.ResetStateSatisfiesTheInvariant : Prop := State.reset.Inv

/-- R33, which the spec derives from the command rules, with what Safety.lean adds to it: every step keeps
the invariant, from every state that has it. In part THE MODEL'S CHOICE: POR clears ERR, so the clause
that a response with an error has left ERR set survives a POR only because POR removes the response
(assumption 4, DESIGN CHOICE, unsafe); an idle step changes nothing (assumption 3, DESIGN CHOICE). -/
def Obligations.StepKeepsTheInvariant : Prop :=
  ∀ s t : State, s.Inv → step s = .next t → t.Inv

/-! ### Whole-machine results -/

/-- From R14, R148 and R191 ("no rule can tell"): what the spec calls unspecified can never be
observed. Two states that differ only there give, step by step, states that differ only there; in
particular the same responses. Among the steps are idle ones and PORs, and there what happens to the
response is THE MODEL'S CHOICE (assumptions 3 and 4, DESIGN CHOICE). -/
def Obligations.UnspecifiedContentsAreNeverObserved : Prop :=
  ∀ (n : Nat) (s t : State), s.SameView t →
    ∃ s' t' : State, runSteps n s = .next s' ∧ runSteps n t = .next t' ∧ s'.SameView t'

/-- R34, which the spec derives from R111 and R124: after a RESET and any commands that neither start
nor end a message, rejected ones and read-outs among them, the lane registers are `S_q` of R19 and BUF
holds the tail of the message. It speaks of the hash state and of no digest: a rejected word leaves it as
it was (R174). -/
def Obligations.ActiveStateIsTheMixingOfTheMessage : Prop :=
  ∀ (s : State) (key : Vec4) (c0 : Command) (cs : List Command) (rest : List HostEvent),
    s.host = .command c0 :: (cs.map HostEvent.command ++ rest) →
    decode c0 = .instr (.reset key) →
    (∀ c ∈ cs, keepsStream c = true) →
    let m := cs.flatMap streamPayload
    let q := m.length / 32
    ∃ t : State, runSteps (cs.length + 1) s = .next t
      ∧ t.phase = .active
      ∧ t.lanes = hashPackets (resetLanes key) m q
      ∧ t.buf = m.drop (32 * q)
      ∧ (bufLen t).toNat = m.length % 32
      ∧ t.host = rest

/-- R193 (which the spec derives from R34, R142, R145 to R147 and R174) under the premise that R176 asks
of every claim about a digest, ERRF = 0 in every response of the sequence: the digest of the FIN that ends
it is the function of R19 of the key and the message. -/
def Obligations.DigestIsTheHashOfKeyAndMessage : Prop :=
  ∀ (s : State) (key : Vec4) (c0 cf : Command) (cs : List Command) (rest : List HostEvent)
    (f : Instr) (digest : Vec4 → List Byte → Port),
    s.host = .command c0 :: (cs.map HostEvent.command ++ .command cf :: rest) →
    decode c0 = .instr (.reset key) →
    (∀ c ∈ cs, keepsStream c = true) →
    decode cf = .instr f →
    ErrorFree (cs.length + 2) s →
    (f, digest) ∈ [(Instr.fin64, digest64), (Instr.fin128, digest128), (Instr.fin256, digest256)] →
    ∃ t : State, runSteps (cs.length + 2) s = .next t
      ∧ t.rsp = some ⟨false, none, digest key (cs.flatMap streamPayload)⟩
      ∧ t.phase = .done ∧ bufLen t = 0#5 ∧ t.host = rest

/-- R126, which the spec derives from R124: two ways of cutting the same bytes into UPDATE payloads
end in the same state (but for the response, which the empty list of commands does not give). -/
def Obligations.UpdateSplitsDoNotMatter : Prop :=
  ∀ (s : State) (xs ys : List (List Byte)), s.phase = .active → s.buf.length ≤ 31 →
    (∀ x ∈ xs, x.length ≤ 32) → (∀ y ∈ ys, y.length ≤ 32) → xs.flatten = ys.flatten →
    ∃ t u : State, runInstrs (xs.map Instr.update) s = .next t
      ∧ runInstrs (ys.map Instr.update) s = .next u
      ∧ { t with rsp := none } = { u with rsp := none }
      ∧ (bufLen t).toNat = ((bufLen s).toNat + xs.flatten.length) % 32

/-- R71: the one-shot pseudo-instructions return the digest of the function that the spec derives in
R19, from any state, and every response of the sequence has ERRF = 0 (the premise of R176, which always
holds here). -/
def Obligations.OneShotHashReturnsTheDigest : Prop :=
  ∀ (s : State) (key : Vec4) (m : List Byte),
    (InstrsErrorFree (hash64 key m) s
      ∧ ∃ t : State, runInstrs (hash64 key m) s = .next t
        ∧ t.rsp = some ⟨false, none, digest64 key m⟩ ∧ t.phase = .done)
    ∧ (InstrsErrorFree (hash128 key m) s
      ∧ ∃ t : State, runInstrs (hash128 key m) s = .next t
        ∧ t.rsp = some ⟨false, none, digest128 key m⟩ ∧ t.phase = .done)
    ∧ (InstrsErrorFree (hash256 key m) s
      ∧ ∃ t : State, runInstrs (hash256 key m) s = .next t
        ∧ t.rsp = some ⟨false, none, digest256 key m⟩ ∧ t.phase = .done)

/-- R176: over a sequence of presented commands, "ERRF = 0 in every response" is equivalent to ERR = 0 at
the end, if it was 0 at the start; so a host that reads ERR once has the premise of a claim about a
digest. -/
def Obligations.ErrorFreeRunIffErrStaysClear : Prop :=
  ∀ (cs : List Command) (rest : List HostEvent) (s : State),
    s.host = cs.map HostEvent.command ++ rest → s.err = false →
      ∃ t : State, runSteps cs.length s = .next t ∧ (ErrorFree cs.length s ↔ t.err = false)
end

