-- ==== Sys2Proof/Laws/Bits.lean ====
section
/-! SUPPORT. The byte and bit views of Decode.lean: slices of joined bit vectors, extensionality by
bytes, and byte strings read as numbers. -/

namespace Sys2Proof

/-- A slice above the low part of a joined vector is a slice of the high part. -/
theorem extract_append_high {v w : Nat} (hi : BitVec v) (lo : BitVec w) (s n k : Nat)
    (h : s = w + k) : (hi ++ lo).extractLsb' s n = hi.extractLsb' k n := by
  rw [BitVec.extractLsb'_append_eq_of_le (by omega)]
  congr 1
  omega

/-- Two vectors with the same bytes are equal. -/
theorem eq_of_bytes {n : Nat} {x y : BitVec (8 * n)}
    (h : ∀ k < n, x.extractLsb' (8 * k) 8 = y.extractLsb' (8 * k) 8) : x = y := by
  ext i hi
  have hk := congrArg (fun b => b.getLsbD (i % 8)) (h (i / 8) (by omega))
  have e : 8 * (i / 8) + i % 8 = i := by omega
  simpa [e, show i % 8 < 8 by omega, BitVec.getLsbD_eq_getElem hi] using hk

/-- A byte of a number that has been cut to `w` bits. -/
theorem extract_ofNat {n k w : Nat} (h : 8 * k + 8 ≤ w) :
    (BitVec.ofNat w n).extractLsb' (8 * k) 8 = BitVec.ofNat 8 (n / 256 ^ k) := by
  apply BitVec.eq_of_toNat_eq
  simp only [BitVec.extractLsb'_toNat, BitVec.toNat_ofNat, Nat.shiftRight_eq_div_pow,
    show (256 : Nat) = 2 ^ 8 from rfl, ← pow_mul]
  obtain ⟨d, rfl⟩ : ∃ d, w = 8 * k + (8 + d) := ⟨w - 8 * k - 8, by omega⟩
  rw [pow_add, Nat.mod_mul_right_div_self, pow_add, Nat.mod_mul_right_mod]

/-- `n` bytes read as a number are below `256 ^ n`. -/
theorem leNat_lt (p : List Byte) : leNat p < 256 ^ p.length := by
  induction p with
  | nil => simp [leNat]
  | cons b bs ih =>
    have := b.isLt
    simp only [leNat, List.length_cons, pow_succ]
    omega

/-- Byte `k` of a byte string read as a number. -/
theorem leNat_byte (p : List Byte) (k : Nat) :
    BitVec.ofNat 8 (leNat p / 256 ^ k) = p.getD k 0#8 := by
  induction p generalizing k with
  | nil => simp [leNat]
  | cons b bs ih =>
    have := b.isLt
    cases k with
    | zero =>
      apply BitVec.eq_of_toNat_eq
      simp [leNat]
      omega
    | succ k =>
      have e : leNat (b :: bs) / 256 ^ (k + 1) = leNat bs / 256 ^ k := by
        rw [pow_succ', ← Nat.div_div_eq_div_mul]
        congr 1
        simp only [leNat]
        omega
      rw [e, ih, List.getD_cons_succ]

@[simp] theorem leBytes_length (n v : Nat) : (leBytes n v).length = n := by
  induction n generalizing v with
  | zero => rfl
  | succ n ih => simp [leBytes, ih]

/-- Byte `k` of what MemWrite stores. -/
theorem leBytes_getD {n v k : Nat} (h : k < n) :
    (leBytes n v).getD k 0#8 = BitVec.ofNat 8 (v / 256 ^ k) := by
  induction n generalizing v k with
  | zero => omega
  | succ n ih =>
    cases k with
    | zero => simp [leBytes]
    | succ k =>
      simp only [leBytes, List.getD_cons_succ]
      rw [ih (by omega), Nat.div_div_eq_div_mul, pow_succ']

@[simp] theorem portBytes_length (d : Port) : (portBytes d).length = 32 := by simp [portBytes]

theorem portBytes_getD {d : Port} {j : Nat} (h : j < 32) :
    (portBytes d).getD j 0#8 = portByte d j := by
  simp [portBytes, List.getD_eq_getElem?_getD, h]

theorem portByte_portOfBytes (p : List Byte) {j : Nat} (h : j < 32) :
    portByte (portOfBytes p) j = p.getD j 0#8 := by
  unfold portByte portOfBytes
  rw [extract_ofNat (by omega), leNat_byte]

/-- Two port values with the same bytes are equal. -/
theorem port_ext {d e : Port} (h : ∀ j < 32, portByte d j = portByte e j) : d = e :=
  eq_of_bytes (n := 32) h

/-- A byte list of at most 32 bytes is read back from the port value it makes. -/
theorem take_portBytes_portOfBytes {p : List Byte} (h : p.length ≤ 32) :
    (portBytes (portOfBytes p)).take p.length = p := by
  apply List.ext_getElem
  · simp [h]
  · intro j h1 h2
    simp [portBytes, portByte_portOfBytes _ (show j < 32 by omega), List.getD_eq_getElem?_getD, h2]

/-- The lanes of a vector laid out as a port value. -/
theorem ofPort_toPort (v : Vec4) : Vec4.ofPort v.toPort = v := by
  unfold Vec4.ofPort Vec4.toPort
  congr 1
  · exact BitVec.extractLsb'_append_eq_right
  · exact (extract_append_high _ _ 64 64 0 rfl).trans BitVec.extractLsb'_append_eq_right
  · exact (extract_append_high _ _ 128 64 64 rfl).trans
      ((extract_append_high _ _ 64 64 0 rfl).trans BitVec.extractLsb'_append_eq_right)
  · exact (extract_append_high _ _ 192 64 128 rfl).trans
      ((extract_append_high _ _ 128 64 64 rfl).trans BitVec.extractLsb'_append_eq_left)

end Sys2Proof
end

