-- ==== Sys2Proof/Laws/Decode.lean ====
section
/-! SUPPORT. What the decoder can answer, said once, and the fields of a word put together. -/

namespace Sys2Proof

/-- The fields of a word put together from fields. -/
theorem fields_cwWord (op : BitVec 4) (nb : BitVec 6) (sel : BitVec 2) :
    cwOp (cwWord op nb sel) = op ∧ cwNb (cwWord op nb sel) = nb
      ∧ cwSel (cwWord op nb sel) = sel ∧ cwRsv (cwWord op nb sel) = 0#4 := by
  refine ⟨BitVec.extractLsb'_append_eq_right, ?_, ?_, ?_⟩
  · exact (extract_append_high _ _ 4 6 0 rfl).trans BitVec.extractLsb'_append_eq_right
  · exact (extract_append_high _ _ 10 2 6 rfl).trans
      ((extract_append_high _ _ 6 2 0 rfl).trans BitVec.extractLsb'_append_eq_right)
  · exact (extract_append_high _ _ 12 4 8 rfl).trans
      ((extract_append_high _ _ 8 4 2 rfl).trans BitVec.extractLsb'_append_eq_left)

/-- A word with RSV zero is put together from its fields. -/
theorem eq_cwWord {cw : BitVec 16} (h : cwRsv cw = 0#4) :
    cw = cwWord (cwOp cw) (cwNb cw) (cwSel cw) := by
  have e0 : cwWord (cwOp cw) (cwNb cw) (cwSel cw) = cwRsv cw ++ cwSel cw ++ cwNb cw ++ cwOp cw := by
    rw [h]
    rfl
  have e1 : cwRsv cw ++ cwSel cw = cw.extractLsb' 10 6 :=
    BitVec.extractLsb'_append_extractLsb'_eq_extractLsb' rfl
  have e2 : cwRsv cw ++ cwSel cw ++ cwNb cw = cw.extractLsb' 4 12 := by
    rw [e1]
    exact BitVec.extractLsb'_append_extractLsb'_eq_extractLsb' rfl
  have e3 : cwRsv cw ++ cwSel cw ++ cwNb cw ++ cwOp cw = cw.extractLsb' 0 16 := by
    rw [e2]
    exact BitVec.extractLsb'_append_extractLsb'_eq_extractLsb' rfl
  rw [e0, e3]
  simp

/-- An operation and its code. -/
theorem ofBits_eq_some {op : BitVec 4} {o : Op} : Op.ofBits op = some o ↔ op = o.toBits := by
  cases o <;> revert op <;> decide

/-- The unassigned codes. -/
theorem ofBits_eq_none {op : BitVec 4} : Op.ofBits op = none ↔ ∀ o : Op, op ≠ o.toBits := by
  constructor
  · intro h o e
    rw [ofBits_eq_some.mpr e] at h
    simp at h
  · intro h
    cases e : Op.ofBits op with
    | none => rfl
    | some o => exact absurd (ofBits_eq_some.mp e) (h o)

@[simp] theorem ofBits_toBits (o : Op) : Op.ofBits o.toBits = some o := ofBits_eq_some.mpr rfl

@[simp] theorem vecSel_ofBits_toBits (v : VecSel) : VecSel.ofBits v.toBits = v := by
  cases v <;> decide

@[simp] theorem vecSel_toBits_ofBits (b : BitVec 2) : (VecSel.ofBits b).toBits = b := by
  revert b
  decide

/-- The exits of the decoder, in its order, each with everything it has checked. -/
inductive DecodeCase (c : Command) : Decoded → Prop
  | rsv (h : cwRsv c.cw ≠ 0#4) : DecodeCase c .illegalCmd
  | unassigned (h : ∀ o : Op, cwOp c.cw ≠ o.toBits) : DecodeCase c .illegalCmd
  | nb (o : Op) (ho : cwOp c.cw = o.toBits) (hu : o ≠ .update) (h : cwNb c.cw ≠ 0#6) :
      DecodeCase c .illegalCmd
  | sel (o : Op) (ho : cwOp c.cw = o.toBits) (hr : o ≠ .rdreg) (h : cwSel c.cw ≠ 0#2) :
      DecodeCase c .illegalCmd
  | long (hr : cwRsv c.cw = 0#4) (ho : cwOp c.cw = Op.toBits .update) (hs : cwSel c.cw = 0#2)
      (h : 32 < (cwNb c.cw).toNat) : DecodeCase c .badLength
  | legal (o : Op) (hr : cwRsv c.cw = 0#4) (ho : cwOp c.cw = o.toBits)
      (hn : o ≠ .update → cwNb c.cw = 0#6) (hs : o ≠ .rdreg → cwSel c.cw = 0#2)
      (hl : o = .update → (cwNb c.cw).toNat ≤ 32) : DecodeCase c (.instr (operands o c))

theorem decode_case (c : Command) : DecodeCase c (decode c) := by
  unfold decode
  split
  · exact .rsv ‹_›
  · rename_i hr
    have hr : cwRsv c.cw = 0#4 := not_not.mp hr
    split
    · exact .unassigned (ofBits_eq_none.mp ‹_›)
    · rename_i o ho
      have ho := ofBits_eq_some.mp ho
      split
      · rename_i h
        exact .nb o ho h.1 h.2
      · rename_i hn
        split
        · rename_i h
          exact .sel o ho h.1 h.2
        · rename_i hs
          split
          · rename_i h
            obtain ⟨rfl, h⟩ := h
            exact .long hr ho (by tauto) h
          · exact .legal o hr ho (by tauto) (by tauto) (by
              intro h
              simp_all)

/-- A legal word decodes to its operation with its operands. -/
theorem decode_cwWord {o : Op} {nb : BitVec 6} {sel : BitVec 2} (d : Port)
    (hn : o ≠ .update → nb = 0#6) (hs : o ≠ .rdreg → sel = 0#2) (hl : nb.toNat ≤ 32) :
    decode ⟨cwWord o.toBits nb sel, d⟩ = .instr (operands o ⟨cwWord o.toBits nb sel, d⟩) := by
  obtain ⟨a, b, c, e⟩ := fields_cwWord o.toBits nb sel
  unfold decode
  simp only [a, b, c, e, ofBits_toBits]
  rw [if_neg (by simp), if_neg (by tauto), if_neg (by tauto), if_neg (by omega)]

end Sys2Proof
end

