-- ==== Sys2Proof/Laws/Lanes.lean ====
section
/-! SUPPORT. The lane views of a vector: extensionality by lanes and by bytes, loading and storing, and
the elements that the rotators and the permute engines move. -/

namespace Sys2Proof.Machine

/-- A claim about every lane is four claims. -/
theorem forall_lane {p : Nat → Prop} (h0 : p 0) (h1 : p 1) (h2 : p 2) (h3 : p 3) :
    ∀ i, i < 4 → p i
  | 0, _ => h0
  | 1, _ => h1
  | 2, _ => h2
  | 3, _ => h3

/-- Two vectors with the same lanes are equal. -/
theorem vec4_ext {x y : Vec4} (h : ∀ i < 4, laneOf x i = laneOf y i) : x = y := by
  have h0 := h 0 (by omega)
  have h1 := h 1 (by omega)
  have h2 := h 2 (by omega)
  have h3 := h 3 (by omega)
  cases x
  cases y
  simp_all [laneOf]

/-- Byte `8i + k` of a vector is byte `k` of lane `i`. -/
theorem vecByte_lane (v : Vec4) {i k : Nat} (hk : k < 8) :
    vecByte v (8 * i + k) = (laneOf v i).extractLsb' (8 * k) 8 := by
  unfold vecByte
  rw [show (8 * i + k) / 8 = i by omega, show (8 * i + k) % 8 = k by omega]

/-- Two vectors with the same bytes are equal. -/
theorem vecByte_ext {x y : Vec4} (h : ∀ j < 32, vecByte x j = vecByte y j) : x = y := by
  refine vec4_ext fun i hi => eq_of_bytes (n := 8) fun k hk => ?_
  rw [← vecByte_lane x hk, ← vecByte_lane y hk]
  exact h _ (by omega)

/-- A lane of a packet is its 8 bytes read as a number. -/
theorem laneOf_loadPacket (p : List Byte) :
    ∀ i, i < 4 → laneOf (loadPacket p) i = BitVec.ofNat 64 (leNat ((p.drop (8 * i)).take 8)) :=
  forall_lane rfl rfl rfl rfl

/-- Byte `j` of a loaded packet is byte `j` of the packet. -/
theorem vecByte_loadPacket (p : List Byte) {j : Nat} (hj : j < 32) :
    vecByte (loadPacket p) j = p.getD j 0#8 := by
  unfold vecByte
  rw [laneOf_loadPacket _ _ (by omega), extract_ofNat (by omega), leNat_byte]
  have e : 8 * (j / 8) + j % 8 = j := by omega
  simp [List.getD_eq_getElem?_getD, List.getElem?_drop, e, show j % 8 < 8 by omega]

@[simp] theorem storeVec_length (v : Vec4) : (storeVec v).length = 32 := by simp [storeVec]

theorem storeVec_getD {v : Vec4} {j : Nat} (h : j < 32) : (storeVec v).getD j 0#8 = vecByte v j := by
  simp [storeVec, List.getD_eq_getElem?_getD, h]

/-- The lanes of a vector laid out as a port value. -/
theorem extract_toPort (v : Vec4) : ∀ i, i < 4 → v.toPort.extractLsb' (64 * i) 64 = laneOf v i :=
  forall_lane (congrArg Vec4.l0 (ofPort_toPort v)) (congrArg Vec4.l1 (ofPort_toPort v))
    (congrArg Vec4.l2 (ofPort_toPort v)) (congrArg Vec4.l3 (ofPort_toPort v))

/-- The bytes of a vector on the port. -/
theorem portByte_toPort (v : Vec4) {j : Nat} (hj : j < 32) : portByte v.toPort j = vecByte v j := by
  unfold vecByte portByte
  rw [← extract_toPort v (j / 8) (by omega)]
  ext q hq
  have e : 64 * (j / 8) + (8 * (j % 8) + q) = 8 * j + q := by omega
  simp [show 8 * (j % 8) + q < 64 by omega, e]

/-- The element rotator is the rotation of bit vectors. -/
theorem rotl32_eq_rotateLeft (e : U32) (k : Nat) : rotl32 e k = e.rotateLeft k := by
  unfold rotl32
  split
  · rename_i h
    simp [BitVec.rotateLeft, BitVec.rotateLeftAux, h, BitVec.ushiftRight_eq_zero]
  · simp [BitVec.rotateLeft, BitVec.rotateLeftAux]

/-- The half-word swap of one lane. -/
theorem swapHalves_eq (x : U64) : swapHalves x = x.extractLsb' 0 32 ++ x.extractLsb' 32 32 := by
  apply BitVec.eq_of_toNat_eq
  have hx := x.isLt
  simp only [swapHalves, BitVec.toNat_or, BitVec.toNat_append, BitVec.toNat_ushiftRight,
    BitVec.toNat_shiftLeft, BitVec.extractLsb'_toNat, Nat.shiftRight_eq_div_pow]
  rw [Nat.or_comm, Nat.shiftLeft_eq, Nat.shiftLeft_eq, Nat.mod_eq_of_lt (a := x.toNat / 2 ^ 32) (by omega)]
  congr 1
  omega

/-- The indexes of ZIPPER are below 16. -/
theorem zipIndex_getD_lt : ∀ j < 16, zipIndex.getD j 0 < 16 := by decide

/-- Both halves of ZIPPER use the one index list. -/
theorem vecByte_zipper (v : Vec4) {h j : Nat} (hh : h < 2) (hj : j < 16) :
    vecByte (zipper v) (16 * h + j) = vecByte v (16 * h + zipIndex.getD j 0) := by
  unfold zipper
  rw [vecByte_loadPacket _ (by omega)]
  have hl : zipIndex.length = 16 := rfl
  interval_cases h <;> simp [List.getD_eq_getElem?_getD, List.getElem?_append, hl, hj]

end Sys2Proof.Machine
end

