-- ==== Sys2Proof/Laws/State.lean ====
section
/-! SUPPORT. One lemma per field of the state and per update of Machine/Ops.lean and Machine/Flags.lean,
so that no later proof unfolds a record update. -/

namespace Sys2Proof.Machine

variable (s : State)

@[simp] theorem setHash_lanes (b : LaneBlock) (l : List Byte) :
    (setHash b l s).lanes = b := rfl
@[simp] theorem setHash_buf (b : LaneBlock) (l : List Byte) :
    (setHash b l s).buf = l := rfl
@[simp] theorem setHash_phase (b : LaneBlock) (l : List Byte) :
    (setHash b l s).phase = s.phase := rfl
@[simp] theorem setHash_err (b : LaneBlock) (l : List Byte) :
    (setHash b l s).err = s.err := rfl
@[simp] theorem setHash_errCode (b : LaneBlock) (l : List Byte) :
    (setHash b l s).errCode = s.errCode := rfl
@[simp] theorem setHash_rsp (b : LaneBlock) (l : List Byte) :
    (setHash b l s).rsp = s.rsp := rfl
@[simp] theorem setHash_host (b : LaneBlock) (l : List Byte) :
    (setHash b l s).host = s.host := rfl
@[simp] theorem setHash_fresh (b : LaneBlock) (l : List Byte) :
    (setHash b l s).fresh = s.fresh := rfl

@[simp] theorem setPhase_lanes (p : Phase) :
    (setPhase p s).lanes = s.lanes := rfl
@[simp] theorem setPhase_buf (p : Phase) :
    (setPhase p s).buf = s.buf := rfl
@[simp] theorem setPhase_phase (p : Phase) :
    (setPhase p s).phase = p := rfl
@[simp] theorem setPhase_err (p : Phase) :
    (setPhase p s).err = s.err := rfl
@[simp] theorem setPhase_errCode (p : Phase) :
    (setPhase p s).errCode = s.errCode := rfl
@[simp] theorem setPhase_rsp (p : Phase) :
    (setPhase p s).rsp = s.rsp := rfl
@[simp] theorem setPhase_host (p : Phase) :
    (setPhase p s).host = s.host := rfl
@[simp] theorem setPhase_fresh (p : Phase) :
    (setPhase p s).fresh = s.fresh := rfl

@[simp] theorem setHost_lanes (h : List HostEvent) :
    (setHost h s).lanes = s.lanes := rfl
@[simp] theorem setHost_buf (h : List HostEvent) :
    (setHost h s).buf = s.buf := rfl
@[simp] theorem setHost_phase (h : List HostEvent) :
    (setHost h s).phase = s.phase := rfl
@[simp] theorem setHost_err (h : List HostEvent) :
    (setHost h s).err = s.err := rfl
@[simp] theorem setHost_errCode (h : List HostEvent) :
    (setHost h s).errCode = s.errCode := rfl
@[simp] theorem setHost_rsp (h : List HostEvent) :
    (setHost h s).rsp = s.rsp := rfl
@[simp] theorem setHost_host (h : List HostEvent) :
    (setHost h s).host = h := rfl
@[simp] theorem setHost_fresh (h : List HostEvent) :
    (setHost h s).fresh = s.fresh := rfl

@[simp] theorem respond_lanes (d : Port) :
    (respond d s).lanes = s.lanes := rfl
@[simp] theorem respond_buf (d : Port) :
    (respond d s).buf = s.buf := rfl
@[simp] theorem respond_phase (d : Port) :
    (respond d s).phase = s.phase := rfl
@[simp] theorem respond_err (d : Port) :
    (respond d s).err = s.err := rfl
@[simp] theorem respond_errCode (d : Port) :
    (respond d s).errCode = s.errCode := rfl
@[simp] theorem respond_rsp (d : Port) :
    (respond d s).rsp = some ⟨false, none, d⟩ := rfl
@[simp] theorem respond_host (d : Port) :
    (respond d s).host = s.host := rfl
@[simp] theorem respond_fresh (d : Port) :
    (respond d s).fresh = s.fresh := rfl

@[simp] theorem respondError_lanes (c : Cause) :
    (respondError c s).lanes = s.lanes := rfl
@[simp] theorem respondError_buf (c : Cause) :
    (respondError c s).buf = s.buf := rfl
@[simp] theorem respondError_phase (c : Cause) :
    (respondError c s).phase = s.phase := rfl
@[simp] theorem respondError_err (c : Cause) :
    (respondError c s).err = s.err := rfl
@[simp] theorem respondError_errCode (c : Cause) :
    (respondError c s).errCode = s.errCode := rfl
@[simp] theorem respondError_rsp (c : Cause) :
    (respondError c s).rsp = some ⟨true, some c, 0#256⟩ := rfl
@[simp] theorem respondError_host (c : Cause) :
    (respondError c s).host = s.host := rfl
@[simp] theorem respondError_fresh (c : Cause) :
    (respondError c s).fresh = s.fresh := rfl

@[simp] theorem recordError_lanes (c : Cause) :
    (recordError c s).lanes = s.lanes := rfl
@[simp] theorem recordError_buf (c : Cause) :
    (recordError c s).buf = s.buf := rfl
@[simp] theorem recordError_phase (c : Cause) :
    (recordError c s).phase = s.phase := rfl
@[simp] theorem recordError_err (c : Cause) :
    (recordError c s).err = true := rfl
@[simp] theorem recordError_errCode (c : Cause) :
    (recordError c s).errCode = if s.err then s.errCode else some c := rfl
@[simp] theorem recordError_rsp (c : Cause) :
    (recordError c s).rsp = s.rsp := rfl
@[simp] theorem recordError_host (c : Cause) :
    (recordError c s).host = s.host := rfl
@[simp] theorem recordError_fresh (c : Cause) :
    (recordError c s).fresh = s.fresh := rfl

@[simp] theorem forgetHash_lanes :
    (forgetHash s).lanes = Config.unspecifiedBlock s.fresh := rfl
@[simp] theorem forgetHash_buf :
    (forgetHash s).buf = [] := rfl
@[simp] theorem forgetHash_phase :
    (forgetHash s).phase = s.phase := rfl
@[simp] theorem forgetHash_err :
    (forgetHash s).err = s.err := rfl
@[simp] theorem forgetHash_errCode :
    (forgetHash s).errCode = s.errCode := rfl
@[simp] theorem forgetHash_rsp :
    (forgetHash s).rsp = s.rsp := rfl
@[simp] theorem forgetHash_host :
    (forgetHash s).host = s.host := rfl
@[simp] theorem forgetHash_fresh :
    (forgetHash s).fresh = s.fresh + 1 := rfl

@[simp] theorem por_lanes :
    (por s).lanes = Config.unspecifiedBlock s.fresh := rfl
@[simp] theorem por_buf :
    (por s).buf = [] := rfl
@[simp] theorem por_phase :
    (por s).phase = .uninit := rfl
@[simp] theorem por_err :
    (por s).err = false := rfl
@[simp] theorem por_errCode :
    (por s).errCode = none := rfl
@[simp] theorem por_rsp :
    (por s).rsp = none := rfl
@[simp] theorem por_host :
    (por s).host = s.host := rfl
@[simp] theorem por_fresh :
    (por s).fresh = s.fresh + 1 := rfl

end Sys2Proof.Machine
end

