-- ==== Sys2Proof/Laws/Ops.lean ====
section
/-! SUPPORT. What each shared operation can do, said once: raising an error, the phase check, the packet
consumer, the end of a message, and a step. -/

namespace Sys2Proof.Machine

/-- Raising an error answers the next state that R174 describes. -/
theorem raise_eq (c : Cause) (s : State) : raise c s = .next (s.afterError c) := by
  simp only [raise, respondError, recordError, State.afterError]

@[simp] theorem afterError_lanes (c : Cause) (s : State) : (s.afterError c).lanes = s.lanes := rfl
@[simp] theorem afterError_buf (c : Cause) (s : State) : (s.afterError c).buf = s.buf := rfl
@[simp] theorem afterError_phase (c : Cause) (s : State) : (s.afterError c).phase = s.phase := rfl
@[simp] theorem afterError_err (c : Cause) (s : State) : (s.afterError c).err = true := rfl
@[simp] theorem afterError_errCode (c : Cause) (s : State) :
    (s.afterError c).errCode = if s.err = true then s.errCode else some c := rfl
@[simp] theorem afterError_rsp (c : Cause) (s : State) :
    (s.afterError c).rsp = some ⟨true, some c, 0#256⟩ := rfl
@[simp] theorem afterError_host (c : Cause) (s : State) : (s.afterError c).host = s.host := rfl
@[simp] theorem afterError_fresh (c : Cause) (s : State) : (s.afterError c).fresh = s.fresh := rfl

/-- The phase check admits in ACTIVE. -/
theorem whenActive_of_active {k : State → State} {s : State} (h : s.phase = .active) :
    whenActive k s = .next (k s) := if_pos h

/-- The phase check raises a SeqError in the other phases. -/
theorem whenActive_of_not_active {k : State → State} {s : State} (h : s.phase ≠ .active) :
    whenActive k s = .next (s.afterError .seqError) := by
  rw [whenActive, if_neg h, raise_eq]

/-- A command that needs the hash state answers its effect or a SeqError, and nothing else. -/
theorem whenActive_cases (k : State → State) (s : State) :
    (s.phase = .active ∧ whenActive k s = .next (k s))
    ∨ (s.phase ≠ .active ∧ whenActive k s = .next (s.afterError .seqError)) := by
  by_cases h : s.phase = .active
  · exact .inl ⟨h, whenActive_of_active h⟩
  · exact .inr ⟨h, whenActive_of_not_active h⟩

/-- UPDATE without a complete packet: the bytes wait in BUF. -/
theorem absorb_of_short {x : List Byte} {s : State} (h : (s.buf ++ x).length < 32) :
    absorb x s = setHash s.lanes (s.buf ++ x) s := by
  unfold absorb
  exact if_neg (by omega)

/-- UPDATE with a complete packet: one round, and the rest waits in BUF. -/
theorem absorb_of_packet {x : List Byte} {s : State} (h : 32 ≤ (s.buf ++ x).length) :
    absorb x s
      = setHash (hashRound (loadPacket ((s.buf ++ x).take 32)) s.lanes) ((s.buf ++ x).drop 32) s := by
  unfold absorb
  exact if_pos h

/-- BUF keeps its form: it never holds a whole packet. -/
theorem absorb_buf_length {x : List Byte} {s : State} (hx : x.length ≤ 32)
    (hb : s.buf.length ≤ 31) :
    (absorb x s).buf.length = (s.buf.length + x.length) % 32 := by
  rcases Nat.lt_or_ge (s.buf ++ x).length 32 with h | h
  · rw [absorb_of_short h]
    simp only [setHash_buf, List.length_append] at h ⊢
    omega
  · rw [absorb_of_packet h]
    simp only [setHash_buf, List.length_append, List.length_drop] at h ⊢
    omega

/-- UPDATE writes the lane registers and BUF, and nothing else. -/
theorem absorb_eq_setHash (x : List Byte) (s : State) : ∃ b l, absorb x s = setHash b l s := by
  rcases Nat.lt_or_ge (s.buf ++ x).length 32 with h | h
  · exact ⟨_, _, absorb_of_short h⟩
  · exact ⟨_, _, absorb_of_packet h⟩

@[simp] theorem absorb_phase (x : List Byte) (s : State) : (absorb x s).phase = s.phase := by
  obtain ⟨_, _, e⟩ := absorb_eq_setHash x s
  rw [e, setHash_phase]
@[simp] theorem absorb_err (x : List Byte) (s : State) : (absorb x s).err = s.err := by
  obtain ⟨_, _, e⟩ := absorb_eq_setHash x s
  rw [e, setHash_err]
@[simp] theorem absorb_errCode (x : List Byte) (s : State) : (absorb x s).errCode = s.errCode := by
  obtain ⟨_, _, e⟩ := absorb_eq_setHash x s
  rw [e, setHash_errCode]
@[simp] theorem absorb_rsp (x : List Byte) (s : State) : (absorb x s).rsp = s.rsp := by
  obtain ⟨_, _, e⟩ := absorb_eq_setHash x s
  rw [e, setHash_rsp]
@[simp] theorem absorb_host (x : List Byte) (s : State) : (absorb x s).host = s.host := by
  obtain ⟨_, _, e⟩ := absorb_eq_setHash x s
  rw [e, setHash_host]
@[simp] theorem absorb_fresh (x : List Byte) (s : State) : (absorb x s).fresh = s.fresh := by
  obtain ⟨_, _, e⟩ := absorb_eq_setHash x s
  rw [e, setHash_fresh]

variable (n : Nat) (f : LaneBlock → Port) (s : State)

@[simp] theorem finish_buf : (finish n f s).buf = [] := rfl
@[simp] theorem finish_phase : (finish n f s).phase = .done := rfl
@[simp] theorem finish_err : (finish n f s).err = s.err := rfl
@[simp] theorem finish_errCode : (finish n f s).errCode = s.errCode := rfl
@[simp] theorem finish_rsp :
    (finish n f s).rsp = some ⟨false, none, f (finPrep n s.buf s.lanes)⟩ := rfl
@[simp] theorem finish_host : (finish n f s).host = s.host := rfl

/-! ### The commands, one equation each -/

theorem exec_reset_eq (key : Vec4) :
    exec (.reset key) s
      = .next (respond 0#256 (setPhase .active (setHash (resetLanes key) [] s))) := rfl

theorem exec_update_eq (x : List Byte) :
    exec (.update x) s
      = if 32 < x.length then raise .badLength s
        else whenActive (fun s => respond 0#256 (absorb x s)) s := rfl

theorem exec_fin64_eq : exec .fin64 s = whenActive (finish 4 extract64) s := rfl

theorem exec_fin128_eq : exec .fin128 s = whenActive (finish 6 extract128) s := rfl

theorem exec_fin256_eq : exec .fin256 s = whenActive (finish 10 extract256) s := rfl

theorem exec_rdst_eq : exec .rdst s = .next (respond ((status s).setWidth 256) s) := rfl

theorem exec_rdreg_eq (sel : VecSel) :
    exec (.rdreg sel) s
      = whenActive (fun s => respond (selectVec sel s.lanes).toPort s) s := rfl

/-- A well-formed UPDATE is the packet consumer behind the phase check. -/
theorem exec_update_wf {x : List Byte} (hx : x.length ≤ 32) :
    exec (.update x) s = whenActive (fun s => respond 0#256 (absorb x s)) s := by
  rw [exec_update_eq, if_neg (by omega)]

/-- What a command can do, said once: it raises an error, loads a key, consumes message bytes, ends a
message, or shows something. -/
inductive Effect (i : Instr) (s : State) : State → Prop
  | error (c : Cause) : Effect i s (s.afterError c)
  | load (key : Vec4) (h : i = .reset key) :
      Effect i s (respond 0#256 (setPhase .active (setHash (resetLanes key) [] s)))
  | consume (x : List Byte) (h : i = .update x) (hx : x.length ≤ 32) (hp : s.phase = .active) :
      Effect i s (respond 0#256 (absorb x s))
  | finish (n : Nat) (f : LaneBlock → Port) (h : i ∈ finCommands) (hp : s.phase = .active) :
      Effect i s (finish n f s)
  | show_ (d : Port) (h : i = .rdst ∨ ∃ sel, i = .rdreg sel) : Effect i s (respond d s)

/-- Every command has one of these effects: no command stops. -/
theorem exec_effect (i : Instr) (s : State) : ∃ t, exec i s = .next t ∧ Effect i s t := by
  cases i with
  | reset key => exact ⟨_, exec_reset_eq s key, .load key rfl⟩
  | update x =>
    rcases Nat.lt_or_ge 32 x.length with hx | hx
    · exact ⟨_, by rw [exec_update_eq, if_pos hx, raise_eq], .error _⟩
    · rw [exec_update_wf s hx]
      rcases whenActive_cases (fun s => respond 0#256 (absorb x s)) s with ⟨hp, e⟩ | ⟨_, e⟩
      · exact ⟨_, e, .consume x rfl hx hp⟩
      · exact ⟨_, e, .error _⟩
  | fin64 =>
    rcases whenActive_cases (Machine.finish 4 extract64) s with ⟨hp, e⟩ | ⟨_, e⟩
    · exact ⟨_, e, .finish _ _ (by simp [finCommands]) hp⟩
    · exact ⟨_, e, .error _⟩
  | fin128 =>
    rcases whenActive_cases (Machine.finish 6 extract128) s with ⟨hp, e⟩ | ⟨_, e⟩
    · exact ⟨_, e, .finish _ _ (by simp [finCommands]) hp⟩
    · exact ⟨_, e, .error _⟩
  | fin256 =>
    rcases whenActive_cases (Machine.finish 10 extract256) s with ⟨hp, e⟩ | ⟨_, e⟩
    · exact ⟨_, e, .finish _ _ (by simp [finCommands]) hp⟩
    · exact ⟨_, e, .error _⟩
  | rdst => exact ⟨_, exec_rdst_eq s, .show_ _ (.inl rfl)⟩
  | rdreg sel =>
    rw [exec_rdreg_eq]
    rcases whenActive_cases (fun s => respond (selectVec sel s.lanes).toPort s) s
      with ⟨hp, e⟩ | ⟨_, e⟩
    · exact ⟨_, e, .show_ _ (.inr ⟨sel, rfl⟩)⟩
    · exact ⟨_, e, .error _⟩

/-- Answering a command: a decoding error is raised, a decoded command runs. -/
theorem answer_cases (c : Command) (s : State) :
    (∃ e, answer c s = .next (s.afterError e)) ∨ ∃ i, decode c = .instr i ∧ answer c s = exec i s := by
  unfold answer
  cases h : decode c with
  | instr i => exact .inr ⟨i, rfl, rfl⟩
  | illegalCmd => exact .inl ⟨_, raise_eq _ _⟩
  | badLength => exact .inl ⟨_, raise_eq _ _⟩

/-- What a command answered does to the response and to ERR: it carries an error and ERR is set, or it
carries none and the error record is as it was. The host's moves stay. -/
theorem exec_record (i : Instr) (s : State) :
    ∃ (t : State) (r : Response), exec i s = .next t ∧ t.rsp = some r ∧ t.host = s.host
      ∧ ((r.errf = true ∧ t.err = true) ∨ (r.errf = false ∧ t.err = s.err ∧ t.errCode = s.errCode)) := by
  obtain ⟨t, e, h⟩ := exec_effect i s
  cases h with
  | error c => exact ⟨_, _, e, rfl, rfl, .inl ⟨rfl, rfl⟩⟩
  | load key h => exact ⟨_, _, e, rfl, rfl, .inr ⟨rfl, rfl, rfl⟩⟩
  | consume x h hx hp =>
    refine ⟨_, _, e, respond_rsp _ _, ?_, .inr ⟨rfl, ?_, ?_⟩⟩
    · rw [respond_host, absorb_host]
    · rw [respond_err, absorb_err]
    · rw [respond_errCode, absorb_errCode]
  | finish n f h hp => exact ⟨_, _, e, finish_rsp n f s, rfl, .inr ⟨rfl, rfl, rfl⟩⟩
  | show_ d h => exact ⟨_, _, e, rfl, rfl, .inr ⟨rfl, rfl, rfl⟩⟩

/-- The same for a command word, legal or not. -/
theorem answer_record (c : Command) (s : State) :
    ∃ (t : State) (r : Response), answer c s = .next t ∧ t.rsp = some r ∧ t.host = s.host
      ∧ ((r.errf = true ∧ t.err = true) ∨ (r.errf = false ∧ t.err = s.err ∧ t.errCode = s.errCode)) := by
  rcases answer_cases c s with ⟨e, h⟩ | ⟨i, _, h⟩
  · exact ⟨_, _, h, rfl, rfl, .inl ⟨rfl, rfl⟩⟩
  · rw [h]
    exact exec_record i s

/-- A run without error from a state whose next step is known. -/
theorem errorFree_succ_iff {n : Nat} {s t : State} (h : step s = .next t) :
    ErrorFree (n + 1) s ↔ (∃ r, t.rsp = some r ∧ r.errf = false) ∧ ErrorFree n t := by
  constructor
  · rintro ⟨t', r, h', hr, he, hn⟩
    obtain rfl := Host.Outcome.next.inj (h.symm.trans h')
    exact ⟨⟨r, hr, he⟩, hn⟩
  · rintro ⟨⟨r, hr, he⟩, hn⟩
    exact ⟨t, r, h, hr, he, hn⟩

/-- The three kinds of step. -/
theorem step_idle {s : State} (h : s.host = []) : step s = .next s := by
  simp only [step, advance, h]

theorem step_por {s : State} {rest : List HostEvent} (h : s.host = .por :: rest) :
    step s = .next (por (setHost rest s)) := by
  simp only [step, advance, h]

theorem step_command {s : State} {c : Command} {rest : List HostEvent}
    (h : s.host = .command c :: rest) : step s = answer c (setHost rest s) := by
  simp only [step, advance, h]

end Sys2Proof.Machine
end

