-- ==== Sys2Proof/Laws/PerInstr.lean ====
section
/-! SUPPORT. Statements for all commands, made command by command: the fields of the encoded word. -/

namespace Sys2Proof.Laws.EncodedFields

/-- The NB that a command is encoded with: the length of an UPDATE's payload, 0 elsewhere (R61). -/
def nbOf : Instr → Nat
  | .reset _ => 0
  | .update x => x.length
  | .fin64 => 0
  | .fin128 => 0
  | .fin256 => 0
  | .rdst => 0
  | .rdreg _ => 0

/-- The SEL that a command is encoded with: the vector number of an RDREG, 0 elsewhere (R61). -/
def selOf : Instr → BitVec 2
  | .reset _ => 0#2
  | .update _ => 0#2
  | .fin64 => 0#2
  | .fin128 => 0#2
  | .fin256 => 0#2
  | .rdst => 0#2
  | .rdreg sel => sel.toBits

/-- A well-formed command is encoded with its operation code, its NB, its SEL, and RSV zero. -/
def Statement (i : Instr) : Prop :=
  i.wellFormed = true →
    cwOp (encode i).cw = i.op.toBits ∧ (cwNb (encode i).cw).toNat = nbOf i
      ∧ cwSel (encode i).cw = selOf i ∧ cwRsv (encode i).cw = 0#4

theorem reset (key : Vec4) : Statement (.reset key) := fun _ => by
  obtain ⟨a, b, c, d⟩ := fields_cwWord (Op.toBits .reset) 0#6 0#2
  exact ⟨a, congrArg BitVec.toNat b, c, d⟩

theorem update (x : List Byte) : Statement (.update x) := fun h => by
  obtain ⟨a, b, c, d⟩ := fields_cwWord (Op.toBits .update) (BitVec.ofNat 6 x.length) 0#2
  have hx : x.length ≤ 32 := of_decide_eq_true h
  refine ⟨a, (congrArg BitVec.toNat b).trans ?_, c, d⟩
  rw [BitVec.toNat_ofNat, nbOf]
  omega

theorem fin64 : Statement .fin64 := fun _ => by
  obtain ⟨a, b, c, d⟩ := fields_cwWord (Op.toBits .fin64) 0#6 0#2
  exact ⟨a, congrArg BitVec.toNat b, c, d⟩

theorem fin128 : Statement .fin128 := fun _ => by
  obtain ⟨a, b, c, d⟩ := fields_cwWord (Op.toBits .fin128) 0#6 0#2
  exact ⟨a, congrArg BitVec.toNat b, c, d⟩

theorem fin256 : Statement .fin256 := fun _ => by
  obtain ⟨a, b, c, d⟩ := fields_cwWord (Op.toBits .fin256) 0#6 0#2
  exact ⟨a, congrArg BitVec.toNat b, c, d⟩

theorem rdst : Statement .rdst := fun _ => by
  obtain ⟨a, b, c, d⟩ := fields_cwWord (Op.toBits .rdst) 0#6 0#2
  exact ⟨a, congrArg BitVec.toNat b, c, d⟩

theorem rdreg (sel : VecSel) : Statement (.rdreg sel) := fun _ => by
  obtain ⟨a, b, c, d⟩ := fields_cwWord (Op.toBits .rdreg) 0#6 sel.toBits
  exact ⟨a, congrArg BitVec.toNat b, c, d⟩

end Sys2Proof.Laws.EncodedFields
end

