-- ==== Sys2Proof/Tests/Slice0.lean ====
section
/-! SUPPORT. The author's own tests: words written out from the tables of 30_encoding.md, single steps with
the values of 95_test_vectors.md and of the rules' examples, and for every statement with hypotheses a
concrete state and operands that meet them. -/

namespace Sys2Proof.Tests

open Sys2Proof.Machine

/-! ### Helpers -/

/-- The state an outcome goes on with. -/
def nextOf : Host.Outcome State Fault Refusal → Option State
  | .next t => some t
  | .fault _ => none
  | .refused _ => none

/-- The response that an outcome leaves. -/
def rspOf (o : Host.Outcome State Fault Refusal) : Option Response := (nextOf o).bind State.rsp

/-- An ACTIVE core that holds a lane block and some bytes. -/
def activeState (b : LaneBlock) (buf : List Byte) : State :=
  { State.reset with
    lanes := b
    buf := buf
    phase := .active }

/-- A core whose digest has been returned. -/
def doneState : State := { State.reset with phase := .done }

/-- The key of the source's scenarios, bytes 0x00 to 0x1f (40_lane_ops.md R95). -/
def keyB : Vec4 :=
  ⟨0x0706050403020100#64, 0x0f0e0d0c0b0a0908#64, 0x1716151413121110#64, 0x1f1e1d1c1b1a1918#64⟩

/-- `n` bytes counting up from `a`. -/
def countBytes (a n : Nat) : List Byte := (List.range n).map (fun k => BitVec.ofNat 8 (a + k))

/-- A core to which the host presents these moves. -/
def hostState (s : State) (h : List HostEvent) : State := { s with host := h }

/-! ### Decoding: words written bit by bit, RSV SEL NB OP (R61, R63) -/

theorem test_decode_reset :
    decode ⟨0b0000_00_000000_0001#16, 0x1f1e1d1c1b1a191817161514131211100f0e0d0c0b0a09080706050403020100#256⟩
      = .instr (.reset keyB) := by decide +kernel

theorem test_decode_update :
    decode ⟨0b0000_00_000011_0010#16, 0xddccbbaa#256⟩ = .instr (.update [0xaa#8, 0xbb#8, 0xcc#8]) := by
  decide +kernel

theorem test_decode_fin64 : decode ⟨0b0000_00_000000_0100#16, 5#256⟩ = .instr .fin64 := by decide +kernel

theorem test_decode_fin128 : decode ⟨0b0000_00_000000_0101#16, 5#256⟩ = .instr .fin128 := by
  decide +kernel

theorem test_decode_fin256 : decode ⟨0b0000_00_000000_0110#16, 5#256⟩ = .instr .fin256 := by
  decide +kernel

theorem test_decode_rdst : decode ⟨0b0000_00_000000_1000#16, 5#256⟩ = .instr .rdst := by decide +kernel

theorem test_decode_rdreg_mul1 : decode ⟨0b0000_11_000000_1001#16, 5#256⟩ = .instr (.rdreg .mul1) := by
  decide +kernel

theorem test_decode_rdreg_v1 : decode ⟨0b0000_01_000000_1001#16, 5#256⟩ = .instr (.rdreg .v1) := by
  decide +kernel

/-- NB = 33 is a BadLength, NB = 63 too, NB = 32 is not (R65). -/
theorem test_decode_length_boundary :
    decode ⟨0b0000_00_100001_0010#16, 0#256⟩ = .badLength
    ∧ decode ⟨0b0000_00_111111_0010#16, 0#256⟩ = .badLength
    ∧ decode ⟨0b0000_00_100000_0010#16, 0#256⟩ = .instr (.update (List.replicate 32 0#8)) := by
  decide +kernel

/-- RSV is looked at before the length (R67, R173). -/
theorem test_decode_rsv_first : decode ⟨0b1000_00_100001_0010#16, 0#256⟩ = .illegalCmd := by
  decide +kernel

/-- NB outside UPDATE, SEL outside RDREG, and an unassigned OP (R65). -/
theorem test_decode_illegal :
    decode ⟨0b0000_00_000001_1001#16, 0#256⟩ = .illegalCmd
    ∧ decode ⟨0b0000_01_000000_0010#16, 0#256⟩ = .illegalCmd
    ∧ decode ⟨0b0000_00_000000_0011#16, 0#256⟩ = .illegalCmd := by decide +kernel

/-- The 34 bytes of `UPDATE aa` (R60, R69). -/
theorem test_command_bytes :
    (encode (.update [0xaa#8])).toBytes
      = [0x12#8, 0x00#8, 0xaa#8] ++ List.replicate 31 0#8 := by decide +kernel

theorem test_decodeTableWord_rdreg : decodeTableWord 16 0x0809 = some (.rdreg .mul0) := by
  decide +kernel

/-! ### WellFormed: ill-formed terms that the check refuses -/

theorem test_wellFormed_refuses_33_bytes : (Instr.update (List.replicate 33 0#8)).wellFormed = false := by
  decide

theorem test_wellFormed_admits_32_bytes : (Instr.update (List.replicate 32 0#8)).wellFormed = true := by
  decide

/-! ### One step: the examples of the rules and 95_test_vectors.md -/

/-- R111, example: `v0` and `v1` after RESET 1, 2, 3, 4. -/
theorem test_reset_keyA :
    ((nextOf (exec (.reset ⟨1#64, 2#64, 3#64, 4#64⟩) State.reset)).map (fun t => (t.lanes.v0, t.lanes.v1)))
      = some (⟨0xdbe6d5d5fe4cce2e#64, 0xa4093822299f31d2#64, 0x13198a2e03707347#64, 0x243f6a8885a308d7#64⟩,
              ⟨0x3bd39e11cb0ef593#64, 0xc0acf16bb5f18a8c#64, 0xbe5466cc34e90c6c#64,
               0x452821e238d01377#64⟩) := by decide +kernel

/-- R124, example: 10 bytes wait, the next 30 complete one packet and leave 8; `v0` is that of the
example of R120. -/
theorem test_update_completes_a_packet :
    ((nextOf (exec (.update (countBytes 10 30)) (activeState (resetLanes keyB) (countBytes 0 10)))).map
        (fun t => (t.lanes.v0, t.buf)))
      = some (⟨0xdf332ea141b5548f#64, 0x870ce55a162fae53#64, 0x8f05a3985ccd10fa#64, 0x57a00fab9814470a#64⟩,
              [0x20#8, 0x21#8, 0x22#8, 0x23#8, 0x24#8, 0x25#8, 0x26#8, 0x27#8]) := by decide +kernel

/-- R173: NB = 40 outside ACTIVE is a BadLength, not a SeqError. -/
theorem test_update_long_before_phase :
    rspOf (step (hostState State.reset [.command ⟨0x0282#16, 0#256⟩]))
      = some ⟨true, some .badLength, 0#256⟩ := by decide +kernel

/-- R145, example (scenario S3). -/
theorem test_fin64_empty_message :
    rspOf (exec .fin64 (activeState (resetLanes keyB) [])) = some ⟨false, none, 0x907a56de22c26e53#256⟩ := by
  decide +kernel

/-- Scenario S4: the message of the one byte 00 (section 6.3 of 95_test_vectors.md, n = 1). -/
theorem test_fin64_one_byte :
    rspOf (exec .fin64 (activeState (resetLanes keyB) [0#8])) = some ⟨false, none, 0x7eab43aac7cddd78#256⟩ := by
  decide +kernel

/-- R146, example. -/
theorem test_fin128_empty_message :
    rspOf (exec .fin128 (activeState (resetLanes keyB) []))
      = some ⟨false, none, 0x33565e767f093e6f0fed268f9d8ffec7#256⟩ := by decide +kernel

/-- R147, example. -/
theorem test_fin256_empty_message :
    rspOf (exec .fin256 (activeState (resetLanes keyB) []))
      = some ⟨false, none,
          0x41da233145751df4b3aebeccb98714ffd946017313c7351fdd44482ac2c874f5#256⟩ := by decide +kernel

/-- R160, examples: 10 bytes waiting, and the status after a rejected UPDATE. -/
theorem test_rdst_examples :
    rspOf (exec .rdst (activeState (resetLanes keyB) (countBytes 0 10))) = some ⟨false, none, 0xa01#256⟩
    ∧ rspOf (exec .rdst { State.reset with err := true, errCode := some .seqError })
        = some ⟨false, none, 0x1c#256⟩ := by decide +kernel

/-- R162, example: the bytes of `v0` after RESET 1, 2, 3, 4, lowest first. -/
theorem test_rdreg_v0 :
    (rspOf (exec (.rdreg .v0) (activeState (resetLanes ⟨1#64, 2#64, 3#64, 4#64⟩) []))).map
        (fun r => (portBytes r.dout).take 9)
      = some [0x2e#8, 0xce#8, 0x4c#8, 0xfe#8, 0xd5#8, 0xd5#8, 0xe6#8, 0xdb#8, 0xd2#8] := by
  decide +kernel

/-- The next step after reset runs the word that is put at the port. -/
theorem test_withFetchWord :
    rspOf (step (State.reset.withFetchWord 16 0x0004)) = some ⟨true, some .seqError, 0#256⟩ := by
  decide +kernel

/-- R127, examples: five bytes, and seventeen. -/
theorem test_remainderPacket :
    remainderPacket (countBytes 0xa0 5)
      = countBytes 0xa0 4 ++ List.replicate 12 0#8 ++ [0xa4#8, 0xa4#8, 0xa4#8] ++ List.replicate 13 0#8
    ∧ remainderPacket (countBytes 0xa0 17)
      = countBytes 0xa0 16 ++ List.replicate 12 0#8 ++ [0xad#8, 0xae#8, 0xaf#8, 0xb0#8] := by
  decide +kernel

/-- R143, example with all high bits set. -/
theorem test_modred :
    modred 0xffffffffffffffff#64 0xffffffffffffffff#64 0x2222222222222222#64 0x1111111111111111#64
      = (0xa222222222222222#64, 0x1111111111111113#64) := by decide +kernel

/-- R90, example, count 31. -/
theorem test_rot32 :
    rot32 ⟨0x8000000100000003#64, 0#64, 0xffffffff00000001#64, 0x123456789abcdef0#64⟩ 31
      = ⟨0xc000000080000001#64, 0#64, 0xffffffff80000000#64, 0x091a2b3c4d5e6f78#64⟩ := by decide +kernel

/-- R93, example. -/
theorem test_permute :
    permute ⟨0x0011223344556677#64, 0x8899aabbccddeeff#64, 0x0123456789abcdef#64, 0xfedcba9876543210#64⟩
      = ⟨0x89abcdef01234567#64, 0x76543210fedcba98#64, 0x4455667700112233#64, 0xccddeeff8899aabb#64⟩ := by
  decide +kernel

/-! ### Witnesses: concrete operands and states that meet the hypotheses of the statements -/

/-- LaneArithmeticIsExactThenTruncated, Rot32RotatesEachHalfAlone, PermuteEnginesMoveHalvesAndAreInvolutions,
Mul32IsTheExactProduct, RoundEqualsItsPerLaneForm, RecordLayoutIsLittleEndianByField: a lane. -/
theorem witness_lane : (0 : Nat) < 4 ∧ (3 : Nat) < 4 := by decide

/-- ZipperPermutesBytesWithinHalves. -/
theorem witness_zipper : (1 : Nat) < 2 ∧ (15 : Nat) < 16 := by decide

/-- LoadPacketAndStoreVecAreInverse. -/
theorem witness_packet : (countBytes 0 32).length = 32 ∧ (3 : Nat) < 4 ∧ (7 : Nat) < 8 := by decide

/-- Broadcast32FillsEveryElement. -/
theorem witness_broadcast : (31 : Nat) ≤ 31 ∧ (3 : Nat) < 4 := by decide

/-- RemainderPacketHasTheListedBytes, RemainderMixesTheLengthThenRunsOneRound: the shortest and the
longest remainder, and the two at the border of the cases. -/
theorem witness_remainder :
    ∀ n ∈ [1, 15, 16, 31], 1 ≤ (countBytes 0 n).length ∧ (countBytes 0 n).length ≤ 31
      ∧ ((countBytes 0 n).length < 16 ∨ 16 ≤ (countBytes 0 n).length) := by decide

/-- DecoderAnswersByFieldsAndByRows, EncodeOfDecodeIsTheCommandWord: a decoded command. -/
theorem witness_decoded : decode ⟨0x0c09#16, 7#256⟩ = .instr (.rdreg .mul1) := by decide +kernel

/-- DecodeOfEncodeIsTheCommand: the longest payload and the empty one. -/
theorem witness_wellFormed :
    (Instr.update (countBytes 0 32)).wellFormed = true ∧ (Instr.update []).wellFormed = true
      ∧ (Instr.rdreg .mul1).wellFormed = true := by decide

/-- DinIsUsedAsTheFormatSays: a word of format CR, and one that is no command. -/
theorem witness_ignored_din :
    (cwOp 0x0409#16 ≠ 0x1#4 ∧ cwOp 0x0409#16 ≠ 0x2#4)
    ∧ (∀ i : Instr, decode ⟨0x0212#16, 3#256⟩ ≠ .instr i)
    ∧ (32#6).toNat ≤ 32 := by
  refine ⟨by decide, fun i h => ?_, by decide⟩
  have e : decode ⟨0x0212#16, 3#256⟩ = .badLength := by decide +kernel
  rw [e] at h
  exact Decoded.noConfusion h

/-- OperandsAreLittleEndianReadsOfDin: the three commands with operands. -/
theorem witness_operands :
    decode ⟨0x0001#16, 3#256⟩ = .instr (.reset ⟨3#64, 0#64, 0#64, 0#64⟩)
    ∧ decode ⟨0x0022#16, 3#256⟩ = .instr (.update [3#8, 0#8]) ∧ (1 : Nat) < [3#8, 0#8].length
    ∧ decode ⟨0x0809#16, 3#256⟩ = .instr (.rdreg .mul0) := by decide +kernel

/-- CommandBytesRoundTrip: 34 bytes are a command. -/
theorem witness_command_bytes :
    Command.ofBytes ([0x08#8, 0x00#8] ++ List.replicate 32 0#8) = some ⟨0x0008#16, 0#256⟩ := by
  decide +kernel

/-- UpdateNCutsIntoPackets: a full packet and a rest. -/
theorem witness_updateN :
    (0 : Nat) < (countBytes 0 33).length / 32 ∧ (countBytes 0 33).length % 32 ≠ 0 := by decide

/-- StepRunsTheDecodedCommand, EveryCommandIsAnswered: every clause. -/
theorem witness_step :
    (hostState State.reset [.command ⟨0x0008#16, 0#256⟩]).host = .command ⟨0x0008#16, 0#256⟩ :: []
    ∧ decode ⟨0x0008#16, 0#256⟩ = .instr .rdst
    ∧ decode ⟨0x0000#16, 0#256⟩ = .illegalCmd
    ∧ decode ⟨0x0212#16, 0#256⟩ = .badLength
    ∧ State.reset.host = []
    ∧ decodeTableWord 16 0x0008 = some .rdst
    ∧ decode ⟨0x0001#16, 0#256⟩ = .instr (.reset ⟨0#64, 0#64, 0#64, 0#64⟩)
    ∧ decode ⟨0x0002#16, 0#256⟩ = .instr (.update []) := by decide +kernel

/-- ResetMapIsInjective: two RESETs that complete. -/
theorem witness_reset_completes :
    ∃ t t' : State, exec (.reset keyB) State.reset = .next t
      ∧ exec (.reset ⟨1#64, 2#64, 3#64, 4#64⟩) State.reset = .next t' := ⟨_, _, rfl, rfl⟩

/-- UpdateAppendsAndConsumesOnePacket, UpdateAddsToBufLenModulo32, EmptyUpdateChangesNothing: 31 bytes
waiting, and the payloads of 0, 1 and 32 bytes on either side of a complete packet. -/
theorem witness_update :
    (activeState (resetLanes keyB) (countBytes 0 31)).phase = .active
    ∧ (activeState (resetLanes keyB) (countBytes 0 31)).buf.length ≤ 31
    ∧ (countBytes 0 32).length ≤ 32
    ∧ ((activeState (resetLanes keyB) (countBytes 0 31)).buf ++ []).length < 32
    ∧ 32 ≤ ((activeState (resetLanes keyB) (countBytes 0 31)).buf ++ [0#8]).length
    ∧ State.reset.phase ≠ .active ∧ doneState.phase ≠ .active := by decide

/-- The same, the encoding clauses: SEL or RSV not zero, NB = 33, NB = 32. -/
theorem witness_update_words :
    (cwOp 0x0402#16 = 0x2#4 ∧ cwSel 0x0402#16 ≠ 0#2)
    ∧ (cwOp 0x1002#16 = 0x2#4 ∧ cwRsv 0x1002#16 ≠ 0#4)
    ∧ (cwOp 0x0212#16 = 0x2#4 ∧ cwSel 0x0212#16 = 0#2 ∧ cwRsv 0x0212#16 = 0#4
        ∧ 33 ≤ (cwNb 0x0212#16).toNat)
    ∧ (cwOp 0x0202#16 = 0x2#4 ∧ cwSel 0x0202#16 = 0#2 ∧ cwRsv 0x0202#16 = 0#4
        ∧ (cwNb 0x0202#16).toNat ≤ 32) := by decide

/-- Fin64ReturnsTheSumOfLaneZero, Fin128ReturnsTwoLaneSums, Fin256ReturnsTheReducedSums,
FinOutsideActiveIsSeqError, RdregReturnsTheSelectedVector: both sides of the phase check. -/
theorem witness_phase :
    (activeState (resetLanes keyB) [1#8]).phase = .active ∧ State.reset.phase ≠ .active
      ∧ doneState.phase ≠ .active ∧ Instr.fin64 ∈ finCommands ∧ Instr.fin256 ∈ finCommands := by decide

/-- The same statements and ResetLoadsTheKeyInEveryPhase, RdstReturnsStatus, the encoding clauses: a word
with the operation code that is not the command's word. -/
theorem witness_other_words :
    (cwOp 0x1001#16 = 0x1#4 ∧ (0x1001#16 : BitVec 16) ≠ 0x0001#16)
    ∧ (cwOp 0x0014#16 = 0x4#4 ∧ (0x0014#16 : BitVec 16) ≠ 0x0004#16)
    ∧ (cwOp 0x0405#16 = 0x5#4 ∧ (0x0405#16 : BitVec 16) ≠ 0x0005#16)
    ∧ (cwOp 0x8006#16 = 0x6#4 ∧ (0x8006#16 : BitVec 16) ≠ 0x0006#16)
    ∧ (cwOp 0x0018#16 = 0x8#4 ∧ (0x0018#16 : BitVec 16) ≠ 0x0008#16)
    ∧ (cwOp 0x0019#16 = 0x9#4 ∧ cwNb 0x0019#16 ≠ 0#6)
    ∧ (cwOp 0x1009#16 = 0x9#4 ∧ cwRsv 0x1009#16 ≠ 0#4) := by decide

/-- RdstReturnsStatus: a full buffer. -/
theorem witness_rdst : (activeState (resetLanes keyB) (countBytes 0 31)).buf.length ≤ 31 := by decide

/-- ReadoutsHaveNoSideEffect: both read-outs complete. -/
theorem witness_readouts :
    (∃ t : State, exec .rdst State.reset = .next t)
    ∧ (activeState (resetLanes keyB) []).phase = .active
    ∧ ∃ t : State, exec (.rdreg .v1) (activeState (resetLanes keyB) []) = .next t :=
  ⟨⟨_, rfl⟩, rfl, ⟨_, rfl⟩⟩

/-- PhaseCheckAdmitsOrRaisesSeqError: the three clauses. -/
theorem witness_phase_check :
    (Instr.rdst.wellFormed = true ∧ Instr.rdst.needsActive = false)
    ∧ (Instr.fin64.wellFormed = true ∧ (activeState (resetLanes keyB) []).phase = .active)
    ∧ (Instr.fin64.needsActive = true ∧ doneState.phase ≠ .active) := by decide

/-- FirstApplicableErrorIsReported: a word for each clause. -/
theorem witness_priority :
    (∀ r ∈ opRows, (0x1002#16 : BitVec 16) &&& r.mask ≠ r.pattern)
    ∧ ((¬ ∀ r ∈ opRows, (0x0282#16 : BitVec 16) &&& r.mask ≠ r.pattern)
        ∧ cwOp 0x0282#16 = 0x2#4 ∧ 33 ≤ (cwNb 0x0282#16).toNat)
    ∧ ((¬ ∀ r ∈ opRows, (0x0202#16 : BitVec 16) &&& r.mask ≠ r.pattern)
        ∧ ¬ 33 ≤ (cwNb 0x0202#16).toNat ∧ cwOp 0x0202#16 ∈ [0x2#4, 0x4#4, 0x5#4, 0x6#4, 0x9#4]
        ∧ State.reset.phase ≠ .active)
    ∧ ((¬ ∀ r ∈ opRows, (0x0008#16 : BitVec 16) &&& r.mask ≠ r.pattern)
        ∧ cwOp 0x0008#16 ≠ 0x2#4 ∧ cwOp 0x0008#16 ∉ [0x2#4, 0x4#4, 0x5#4, 0x6#4, 0x9#4]) := by decide

/-- RejectedCommandLeavesTheHashState, ErrorFlagIsStickyUntilPor: a rejected command sets ERR. -/
theorem witness_rejected :
    ∃ t : State, step (hostState State.reset [.command ⟨0x0004#16, 0#256⟩]) = .next t
      ∧ t.rsp = some ⟨true, some .seqError, 0#256⟩ ∧ State.reset.err = false ∧ t.err = true :=
  ⟨_, rfl, rfl, rfl, rfl⟩

/-- ErrorFlagIsStickyUntilPor: a step that is no POR, from a state with ERR set and from one without. -/
theorem witness_sticky :
    (∀ rest : List HostEvent, (hostState State.reset [.command ⟨0x0001#16, 0#256⟩]).host ≠ .por :: rest)
    ∧ (hostState { State.reset with err := true, errCode := some .badLength } [.por]).err = true
    ∧ Instr.fin64 ≠ .rdst := by
  refine ⟨fun rest h => ?_, by decide, by decide⟩
  cases h

/-- OnlyResetFinAndPorWritePhase: a step that changes PHASE, in each of the three ways. -/
theorem witness_phase_writes :
    (nextOf (step (hostState State.reset [.command ⟨0x0001#16, 0#256⟩]))).map State.phase = some .active
    ∧ (nextOf (step (hostState (activeState (resetLanes keyB) []) [.command ⟨0x0004#16, 0#256⟩]))).map
        State.phase = some .done
    ∧ (nextOf (step (hostState doneState [.por]))).map State.phase = some .uninit := by decide +kernel

/-- PorSetsTheControlState: POR as the next move. -/
theorem witness_por : (hostState doneState [.por]).host = .por :: [] := by decide

/-- StepKeepsTheInvariant: a state with the invariant from which a command completes. -/
theorem witness_invariant :
    (hostState (activeState (resetLanes keyB) (countBytes 0 31)) [.command ⟨0x0012#16, 5#256⟩]).Inv
    ∧ ∃ t : State,
        step (hostState (activeState (resetLanes keyB) (countBytes 0 31)) [.command ⟨0x0012#16, 5#256⟩])
          = .next t := by
  refine ⟨⟨by decide, by decide, by decide, fun r h => ?_, fun r h => ?_⟩, ?_⟩
  · cases h
  · cases h
  · exact ⟨_, rfl⟩

/-- UnspecifiedContentsAreNeverObserved: two different states that differ only in the unspecified. -/
theorem witness_sameView :
    State.reset.SameView { State.reset with lanes := resetLanes keyB, fresh := 7 }
    ∧ State.reset ≠ { State.reset with lanes := resetLanes keyB, fresh := 7 } := by
  refine ⟨⟨rfl, rfl, rfl, rfl, rfl, rfl, fun h => ?_⟩, by decide⟩
  exact Phase.noConfusion h

/-- ActiveStateIsTheMixingOfTheMessage: a RESET, an UPDATE, a read-out, a word that is no command, and then a
FIN and a POR as the rest. -/
theorem witness_stream :
    (hostState State.reset
        (.command ⟨0x0001#16, 9#256⟩ :: ([⟨0x0022#16, 0x0201#256⟩, ⟨0x0009#16, 0#256⟩, ⟨0x0000#16, 0#256⟩].map
          HostEvent.command ++ .command ⟨0x0005#16, 0#256⟩ :: [.por]))).host
      = .command ⟨0x0001#16, 9#256⟩ :: ([⟨0x0022#16, 0x0201#256⟩, ⟨0x0009#16, 0#256⟩, ⟨0x0000#16, 0#256⟩].map
          HostEvent.command ++ .command ⟨0x0005#16, 0#256⟩ :: [.por])
    ∧ decode ⟨0x0001#16, 9#256⟩ = .instr (.reset ⟨9#64, 0#64, 0#64, 0#64⟩)
    ∧ (∀ c ∈ [(⟨0x0022#16, 0x0201#256⟩ : Command), ⟨0x0009#16, 0#256⟩, ⟨0x0000#16, 0#256⟩],
        keepsStream c = true)
    ∧ [(⟨0x0022#16, 0x0201#256⟩ : Command), ⟨0x0009#16, 0#256⟩, ⟨0x0000#16, 0#256⟩].flatMap streamPayload
        = [1#8, 2#8]
    ∧ decode ⟨0x0005#16, 0#256⟩ = .instr .fin128 := by decide +kernel

/-- A RESET, an UPDATE of two bytes, an RDREG and a FIN128, all admitted. -/
def digestHost : State :=
  hostState State.reset
    (.command ⟨0x0001#16, 9#256⟩ :: ([⟨0x0022#16, 0x0201#256⟩, ⟨0x0009#16, 0#256⟩].map HostEvent.command
      ++ .command ⟨0x0005#16, 0#256⟩ :: [.por]))

/-- DigestIsTheHashOfKeyAndMessage: the words of such a sequence, and the digest that belongs to its FIN. -/
theorem witness_digest :
    decode ⟨0x0001#16, 9#256⟩ = .instr (.reset ⟨9#64, 0#64, 0#64, 0#64⟩)
    ∧ (∀ c ∈ [(⟨0x0022#16, 0x0201#256⟩ : Command), ⟨0x0009#16, 0#256⟩], keepsStream c = true)
    ∧ decode ⟨0x0005#16, 0#256⟩ = .instr .fin128
    ∧ (Instr.fin128, digest128)
        ∈ [(Instr.fin64, digest64), (Instr.fin128, digest128), (Instr.fin256, digest256)] :=
  ⟨by decide +kernel, by decide +kernel, by decide +kernel, .tail _ (.head _)⟩

/-- DigestIsTheHashOfKeyAndMessage: every response of that sequence has ERRF = 0. -/
theorem witness_digest_errorFree : ErrorFree 4 digestHost :=
  ⟨_, _, rfl, rfl, rfl, _, _, rfl, rfl, rfl, _, _, rfl, rfl, rfl, _, _, rfl, rfl, rfl, trivial⟩

/-- ErrorFreeRunIffErrStaysClear: ERR is 0 before the sequence. -/
theorem witness_errorFree_start : digestHost.err = false := by decide

/-- UpdateSplitsDoNotMatter: one message of 40 bytes cut in two ways. -/
theorem witness_splits :
    (activeState (resetLanes keyB) (countBytes 0 31)).phase = .active
    ∧ (activeState (resetLanes keyB) (countBytes 0 31)).buf.length ≤ 31
    ∧ (∀ x ∈ [countBytes 0 32, countBytes 32 8], x.length ≤ 32)
    ∧ (∀ y ∈ [countBytes 0 8, [], countBytes 8 32], y.length ≤ 32)
    ∧ [countBytes 0 32, countBytes 32 8].flatten = [countBytes 0 8, [], countBytes 8 32].flatten := by
  decide +kernel

end Sys2Proof.Tests
end

/-! Family 10_state.md, what the proofs share: the fields of STATUS, the bytes of the record, what one step
can do, and what it does to ERR, ERRCODE and PHASE. -/

namespace Sys2Proof.Machine

/-! ### STATUS (R29) -/

/-- STATUS from bit 6 on, where BUFLEN stands between two fields of zeros. -/
theorem status_above_errCode (s : State) (k n : Nat) :
    (status s).extractLsb' (6 + k) n = (0#19 ++ bufLen s ++ 0#2).extractLsb' k n := by
  unfold status
  rw [extract_append_high _ _ (6 + k) n (4 + k) (by omega),
    extract_append_high _ _ (4 + k) n (3 + k) (by omega),
    extract_append_high _ _ (3 + k) n k rfl]

@[simp] theorem status_phase (s : State) : (status s).extractLsb' 0 2 = s.phase.toBits :=
  BitVec.extractLsb'_append_eq_right

theorem status_err (s : State) : (status s).getLsbD 2 = s.err := by
  rw [status, BitVec.getLsbD_append, if_neg (by decide), BitVec.getLsbD_append, if_pos (by decide)]
  cases s.err <;> rfl

@[simp] theorem status_errCode (s : State) : (status s).extractLsb' 3 3 = codeBits s.errCode := by
  unfold status
  rw [extract_append_high _ _ 3 3 1 rfl, extract_append_high _ _ 1 3 0 rfl,
    BitVec.extractLsb'_append_eq_right]

@[simp] theorem status_zero_low (s : State) : (status s).extractLsb' 6 2 = 0#2 :=
  (status_above_errCode s 0 2).trans BitVec.extractLsb'_append_eq_right

@[simp] theorem status_bufLen (s : State) : (status s).extractLsb' 8 5 = bufLen s := by
  rw [status_above_errCode s 2 5, extract_append_high _ _ 2 5 0 rfl,
    BitVec.extractLsb'_append_eq_right]

@[simp] theorem status_zero_high (s : State) : (status s).extractLsb' 13 19 = 0#19 := by
  rw [status_above_errCode s 7 19, extract_append_high _ _ 7 19 5 rfl,
    BitVec.extractLsb'_append_eq_left]

/-! ### The record (R22) -/

/-- The bytes that a vector shows on the port are the bytes it is stored as. -/
theorem portBytes_toPort (v : Vec4) : portBytes v.toPort = storeVec v :=
  List.map_congr_left fun _ hj => portByte_toPort v (List.mem_range.mp hj)

@[simp] theorem loadPacket_storeVec (v : Vec4) : loadPacket (storeVec v) = v :=
  vecByte_ext fun j hj => by rw [vecByte_loadPacket _ hj, storeVec_getD hj]

/-- Lane `i` of a stored vector is the 8 bytes at offset `8i`. -/
theorem memRead_storeVec (v : Vec4) {i : Nat} (hi : i < 4) :
    memRead (storeVec v) (8 * i) 8 = (laneOf v i).toNat := by
  have hlane := laneOf_loadPacket (storeVec v) i hi
  have hlt := leNat_lt (((storeVec v).drop (8 * i)).take 8)
  have hlen : (((storeVec v).drop (8 * i)).take 8).length = 8 := by simp; omega
  rw [hlen] at hlt
  rw [loadPacket_storeVec] at hlane
  rw [hlane, BitVec.toNat_ofNat, Nat.mod_eq_of_lt (by omega), memRead]

@[simp] theorem record_length (b : LaneBlock) : (record b).length = 128 := by simp [record]

/-- The record holds the vector that SEL names from byte `32 * SEL` on. -/
theorem record_slice (b : LaneBlock) (sel : VecSel) :
    ((record b).drop (32 * sel.toBits.toNat)).take 32 = storeVec (selectVec sel b) := by
  cases sel <;>
    simp [record, VecSel.toBits, selectVec, List.drop_append, List.drop_eq_nil_of_le]

/-- Reading a lane of the record is reading it in the stored vector. -/
theorem memRead_record (b : LaneBlock) (sel : VecSel) {i : Nat} (hi : i < 4) :
    memRead (record b) (32 * sel.toBits.toNat + 8 * i) 8 = (laneOf (selectVec sel b) i).toNat := by
  rw [← memRead_storeVec _ hi, ← record_slice, memRead, memRead, List.drop_take, List.take_take,
    List.drop_drop, Nat.min_eq_left (by omega)]

/-! ### What one step can do -/

/-- The kinds of step: nothing to do, a power-on reset, a command word that decoding rejects, and a
decoded command with one of its effects. -/
inductive StepCase (s : State) : State → Prop
  | idle (h : s.host = []) : StepCase s s
  | por (rest : List HostEvent) (h : s.host = .por :: rest) : StepCase s (por (setHost rest s))
  | reject (c : Command) (rest : List HostEvent) (e : Cause) (h : s.host = .command c :: rest) :
      StepCase s ((setHost rest s).afterError e)
  | run (c : Command) (rest : List HostEvent) (i : Instr) (t : State) (h : s.host = .command c :: rest)
      (hd : decode c = .instr i) (ht : Effect i (setHost rest s) t) : StepCase s t

theorem step_case {s t : State} (h : step s = .next t) : StepCase s t := by
  match hh : s.host with
  | [] =>
    cases (step_idle hh).symm.trans h
    exact .idle hh
  | .por :: rest =>
    cases (step_por hh).symm.trans h
    exact .por rest hh
  | .command c :: rest =>
    rw [step_command hh] at h
    rcases answer_cases c (setHost rest s) with ⟨e, ha⟩ | ⟨i, hd, ha⟩
    · cases ha.symm.trans h
      exact .reject c rest e hh
    · obtain ⟨u, hu, heff⟩ := exec_effect i (setHost rest s)
      cases hu.symm.trans (ha.symm.trans h)
      exact .run c rest i _ hh hd heff

/-! ### ERR and ERRCODE (R27) -/

/-- How ERR and ERRCODE may move from `s` to `t` when there is no POR: kept once ERR is set, set with the
code of the response, and ERRCODE kept while ERR stays 0. -/
def RecordSticky (s t : State) : Prop :=
  (s.err = true → t.err = true ∧ t.errCode = s.errCode)
  ∧ (s.err = false → t.err = true →
      ∃ r : Response, t.rsp = some r ∧ r.errf = true ∧ t.errCode = r.code)
  ∧ (s.err = false → t.err = false → t.errCode = s.errCode)

theorem recordSticky_of_eq {s t : State} (he : t.err = s.err) (hc : t.errCode = s.errCode) :
    RecordSticky s t := by
  refine ⟨fun h => ⟨he.trans h, hc⟩, fun h0 h1 => ?_, fun _ _ => hc⟩
  rw [he, h0] at h1
  cases h1

theorem recordSticky_afterError (c : Cause) (s : State) : RecordSticky s (s.afterError c) := by
  refine ⟨fun h => ⟨rfl, ?_⟩, fun h _ => ⟨_, rfl, rfl, ?_⟩, fun _ h => ?_⟩
  · rw [afterError_errCode, if_pos h]
  · simp [h]
  · cases h

theorem recordSticky_of_effect {i : Instr} {s t : State} (h : Effect i s t) : RecordSticky s t := by
  cases h with
  | error c => exact recordSticky_afterError c s
  | load key hi => exact recordSticky_of_eq rfl rfl
  | consume x hi hx hp => exact recordSticky_of_eq (by simp) (by simp)
  | finish n f hi hp => exact recordSticky_of_eq rfl rfl
  | show_ d hi => exact recordSticky_of_eq rfl rfl

/-- The state with another error record. -/
def setRecord (e : Bool) (ec : Option Cause) (s : State) : State := { s with err := e, errCode := ec }

/-- Two outcomes that both go on, to states equal apart from the error record. -/
def AgreeButRecord (e : Bool) (ec : Option Cause) (o o' : Host.Outcome State Fault Refusal) : Prop :=
  ∃ t u : State, o = .next t ∧ o' = .next u ∧ setRecord e ec t = setRecord e ec u

section
variable (e : Bool) (ec : Option Cause) (s : State)

theorem absorb_setRecord (x : List Byte) :
    absorb x (setRecord e ec s) = setRecord e ec (absorb x s) := by
  rcases Nat.lt_or_ge (s.buf ++ x).length 32 with h | h
  · rw [absorb_of_short h, absorb_of_short (s := setRecord e ec s) h]
    rfl
  · rw [absorb_of_packet h, absorb_of_packet (s := setRecord e ec s) h]
    rfl

theorem finish_setRecord (n : Nat) (f : LaneBlock → Port) :
    finish n f (setRecord e ec s) = setRecord e ec (finish n f s) := rfl

theorem raise_agree (c : Cause) : AgreeButRecord e ec (raise c s) (raise c (setRecord e ec s)) :=
  ⟨_, _, raise_eq c s, raise_eq c _, rfl⟩

theorem whenActive_agree {k : State → State} (hk : k (setRecord e ec s) = setRecord e ec (k s)) :
    AgreeButRecord e ec (whenActive k s) (whenActive k (setRecord e ec s)) := by
  by_cases hp : s.phase = .active
  · refine ⟨_, _, whenActive_of_active hp, whenActive_of_active hp, ?_⟩
    rw [hk]
    rfl
  · exact ⟨_, _, whenActive_of_not_active hp, whenActive_of_not_active hp, rfl⟩

/-- No command but RDST depends on the error record. -/
theorem exec_agree {i : Instr} (hi : i ≠ .rdst) :
    AgreeButRecord e ec (exec i s) (exec i (setRecord e ec s)) := by
  cases i with
  | reset key => exact ⟨_, _, exec_reset_eq s key, exec_reset_eq _ key, rfl⟩
  | update x =>
    rw [exec_update_eq, exec_update_eq]
    split
    · exact raise_agree e ec s _
    · exact whenActive_agree e ec s (congrArg (respond 0#256) (absorb_setRecord e ec s x))
  | fin64 => exact whenActive_agree e ec s (finish_setRecord e ec s _ _)
  | fin128 => exact whenActive_agree e ec s (finish_setRecord e ec s _ _)
  | fin256 => exact whenActive_agree e ec s (finish_setRecord e ec s _ _)
  | rdst => exact absurd rfl hi
  | rdreg sel =>
    rw [exec_rdreg_eq, exec_rdreg_eq]
    exact whenActive_agree e ec s (by rfl)

end

/-! ### PHASE (R26) -/

/-- A FIN in ACTIVE ends the message. -/
theorem exec_fin_of_active {f : Instr} (hf : f ∈ finCommands) {s : State} (hp : s.phase = .active) :
    ∃ n g, exec f s = .next (finish n g s) := by
  simp only [finCommands, List.mem_cons, List.not_mem_nil, or_false] at hf
  rcases hf with rfl | rfl | rfl
  · exact ⟨_, _, (exec_fin64_eq s).trans (whenActive_of_active hp)⟩
  · exact ⟨_, _, (exec_fin128_eq s).trans (whenActive_of_active hp)⟩
  · exact ⟨_, _, (exec_fin256_eq s).trans (whenActive_of_active hp)⟩

/-- A command that changes PHASE is a RESET, which enters ACTIVE, or a FIN in ACTIVE, which enters DONE. -/
theorem phase_write_of_effect {i : Instr} {s t : State} (h : Effect i s t) (hne : t.phase ≠ s.phase) :
    (∃ key, i = .reset key ∧ t.phase = .active)
    ∨ (i ∈ finCommands ∧ s.phase = .active ∧ t.phase = .done) := by
  cases h with
  | error c => exact absurd rfl hne
  | load key hi => exact .inl ⟨key, hi, rfl⟩
  | consume x hi hx hp => exact absurd (absorb_phase x s) hne
  | finish n f hi hp => exact .inr ⟨hi, hp, rfl⟩
  | show_ d hi => exact absurd rfl hne

/-! ### The statements -/

/-- Settles O36, field by field. -/
theorem statusFieldsAreTheState : Obligations.StatusFieldsAreTheState := by
  intro s
  refine ⟨(status_phase s).trans ?_, status_err s, (status_errCode s).trans ?_, status_zero_low s,
    status_bufLen s, status_zero_high s⟩
  · cases s.phase <;> rfl
  · rcases s.errCode with _ | _ | _ | _ <;> rfl

/-- Settles O39: a vector is one slice of the record, and a lane one slice of its vector. -/
theorem recordLayoutIsLittleEndianByField : Obligations.RecordLayoutIsLittleEndianByField := by
  refine ⟨fun b i hi => ?_, fun sel s hp => ?_⟩
  · exact ⟨record_length b, memRead_record b .v0 hi, memRead_record b .v1 hi,
      memRead_record b .mul0 hi, memRead_record b .mul1 hi⟩
  · refine ⟨_, _, (exec_rdreg_eq s sel).trans (whenActive_of_active hp), respond_rsp _ _, ?_⟩
    rw [portBytes_toPort, record_slice]

/-- Settles O45, by the kinds of step and, for the last part, command by command. -/
theorem errorFlagIsStickyUntilPor : Obligations.ErrorFlagIsStickyUntilPor := by
  refine ⟨fun s t h hno => ?_, fun s rest h => ⟨_, step_por h, rfl, rfl⟩,
    fun i s e ec hi => exec_agree e ec s hi⟩
  show RecordSticky s t
  cases step_case h with
  | idle _ => exact recordSticky_of_eq rfl rfl
  | por rest hh => exact absurd hh (hno rest)
  | reject c rest e _ => exact recordSticky_afterError e (setHost rest s)
  | run c rest i t _ _ heff => exact recordSticky_of_effect (s := setHost rest s) heff

/-- Settles O46, by the kinds of step and the effects of a command. -/
theorem onlyResetFinAndPorWritePhase : Obligations.OnlyResetFinAndPorWritePhase := by
  refine ⟨fun s t h hne => ?_, fun s rest h => ⟨_, step_por h, rfl⟩,
    fun key s => ⟨_, exec_reset_eq s key, rfl⟩, fun f hf s hp => ?_⟩
  · cases step_case h with
    | idle _ => exact absurd rfl hne
    | por rest hh => exact .inl ⟨rest, hh, rfl⟩
    | reject c rest e _ => exact absurd rfl hne
    | run c rest i t hh hd heff =>
      rcases phase_write_of_effect heff hne with ⟨key, rfl, ht⟩ | ⟨hf, hp, ht⟩
      · exact .inr (.inl ⟨c, rest, key, hh, hd, ht⟩)
      · exact .inr (.inr ⟨c, rest, i, hf, hp, hh, hd, ht⟩)
  · obtain ⟨n, g, hfin⟩ := exec_fin_of_active hf hp
    exact ⟨_, hfin, rfl⟩

end Sys2Proof.Machine

/-! Family 30_encoding.md: the rows of the opcode map by the fields of the word, the decoder's answer by
the rows, the operands as slices of DIN, the byte forms, UPDATEN, and the response to a command. -/

namespace Sys2Proof

open Machine

/-! ### The rows of the opcode map (R63) -/

/-- A word is its four fields. -/
theorem word_eq_fields (cw : BitVec 16) : cw = cwRsv cw ++ cwSel cw ++ cwNb cw ++ cwOp cw := by
  have h6 : cwRsv cw ++ cwSel cw = cw.extractLsb' 10 6 :=
    BitVec.extractLsb'_append_extractLsb'_eq_extractLsb' rfl
  have h12 : cw.extractLsb' 10 6 ++ cwNb cw = cw.extractLsb' 4 12 :=
    BitVec.extractLsb'_append_extractLsb'_eq_extractLsb' rfl
  have h16 : cw.extractLsb' 4 12 ++ cwOp cw = cw.extractLsb' 0 16 :=
    BitVec.extractLsb'_append_extractLsb'_eq_extractLsb' rfl
  rw [h6, h12, h16, BitVec.extractLsb'_eq_self]

/-- Two words with the same fields are equal. -/
theorem fields_ext_iff {x y : BitVec 16} :
    x = y ↔ cwRsv x = cwRsv y ∧ cwOp x = cwOp y ∧ cwNb x = cwNb y ∧ cwSel x = cwSel y := by
  constructor
  · rintro rfl
    exact ⟨rfl, rfl, rfl, rfl⟩
  · rintro ⟨hr, ho, hn, hs⟩
    rw [word_eq_fields x, word_eq_fields y, hr, ho, hn, hs]

/-- A word is masked field by field. -/
theorem fields_and (x m : BitVec 16) :
    cwRsv (x &&& m) = cwRsv x &&& cwRsv m ∧ cwOp (x &&& m) = cwOp x &&& cwOp m
      ∧ cwNb (x &&& m) = cwNb x &&& cwNb m ∧ cwSel (x &&& m) = cwSel x &&& cwSel m :=
  ⟨BitVec.extractLsb'_and, BitVec.extractLsb'_and, BitVec.extractLsb'_and, BitVec.extractLsb'_and⟩

/-- The mask of an operation's row: RSV and OP count, NB outside UPDATE, SEL outside RDREG. -/
def rowMask (o : Op) : BitVec 16 :=
  BitVec.allOnes 4 ++ (if o = .rdreg then 0#2 else BitVec.allOnes 2)
    ++ (if o = .update then 0#6 else BitVec.allOnes 6) ++ BitVec.allOnes 4

theorem fields_rowMask (o : Op) :
    cwRsv (rowMask o) = BitVec.allOnes 4 ∧ cwOp (rowMask o) = BitVec.allOnes 4
      ∧ cwNb (rowMask o) = (if o = .update then 0#6 else BitVec.allOnes 6)
      ∧ cwSel (rowMask o) = (if o = .rdreg then 0#2 else BitVec.allOnes 2) := by
  cases o <;> decide

/-- The row of an operation. -/
def rowOf (o : Op) : OpRow := ⟨o, cwWord o.toBits 0#6 0#2, rowMask o⟩

/-- The rows as R63 prints them are the rows of the seven operations. -/
theorem mem_opRows {r : OpRow} : r ∈ opRows ↔ ∃ o, r = rowOf o := by
  have e : opRows = [.reset, .update, .fin64, .fin128, .fin256, .rdst, .rdreg].map rowOf := by decide
  rw [e, List.mem_map]
  constructor
  · rintro ⟨o, -, rfl⟩
    exact ⟨o, rfl⟩
  · rintro ⟨o, rfl⟩
    exact ⟨o, by cases o <;> simp, rfl⟩

/-- The word belongs to the row of `o` by its fields (R61, R63). -/
structure InRow (o : Op) (cw : BitVec 16) : Prop where
  rsv : cwRsv cw = 0#4
  op : cwOp cw = o.toBits
  nb : o ≠ .update → cwNb cw = 0#6
  sel : o ≠ .rdreg → cwSel cw = 0#2

/-- A field under a mask of zeros or of ones. -/
theorem and_ite_eq_zero {n : Nat} {x : BitVec n} {p : Prop} [Decidable p] :
    x &&& (if p then 0#n else BitVec.allOnes n) = 0#n ↔ (¬ p → x = 0#n) := by
  by_cases h : p
  · simp [h]
  · rw [if_neg h, BitVec.and_allOnes]
    exact ⟨fun e _ => e, fun e => e h⟩

/-- Mask and pattern of a row say what its fields say. -/
theorem rowOf_match {o : Op} {cw : BitVec 16} :
    cw &&& (rowOf o).mask = (rowOf o).pattern ↔ InRow o cw := by
  obtain ⟨hr, ho, hn, hs⟩ := fields_and cw (rowMask o)
  obtain ⟨mr, mo, mn, ms⟩ := fields_rowMask o
  obtain ⟨po, pn, ps, pr⟩ := fields_cwWord o.toBits 0#6 0#2
  rw [rowOf, fields_ext_iff, hr, ho, hn, hs, mr, mo, mn, ms, po, pn, ps, pr, BitVec.and_allOnes,
    BitVec.and_allOnes, and_ite_eq_zero, and_ite_eq_zero]
  exact ⟨fun ⟨r, p, n, l⟩ => ⟨r, p, n, l⟩, fun ⟨r, p, n, l⟩ => ⟨r, p, n, l⟩⟩

theorem toBits_injective {o o' : Op} (h : o.toBits = o'.toBits) : o = o' :=
  Option.some.inj ((ofBits_toBits o).symm.trans ((congrArg Op.ofBits h).trans (ofBits_toBits o')))

/-- A word belongs to one row at most. -/
theorem InRow.unique {o o' : Op} {cw : BitVec 16} (h : InRow o cw) (h' : InRow o' cw) : o = o' :=
  toBits_injective (h.op.symm.trans h'.op)

/-! ### The three answers of the decoder (R65) -/

/-- The decoder's answer by the rows: no row, the UPDATE row with too many bytes, or a legal word of a
row. -/
theorem decode_row_cases (c : Command) :
    (decode c = .illegalCmd ∧ ∀ o, ¬ InRow o c.cw)
    ∨ (decode c = .badLength ∧ InRow .update c.cw ∧ 32 < (cwNb c.cw).toNat)
    ∨ ∃ o, decode c = .instr (operands o c) ∧ InRow o c.cw
        ∧ (o = .update → (cwNb c.cw).toNat ≤ 32) := by
  have h := decode_case c
  generalize decode c = d at h ⊢
  cases h with
  | rsv h => exact .inl ⟨rfl, fun o hr => h hr.rsv⟩
  | unassigned h => exact .inl ⟨rfl, fun o hr => h o hr.op⟩
  | nb o ho hu h =>
    refine .inl ⟨rfl, fun o' hr => ?_⟩
    obtain rfl := toBits_injective (ho.symm.trans hr.op)
    exact h (hr.nb hu)
  | sel o ho hu h =>
    refine .inl ⟨rfl, fun o' hr => ?_⟩
    obtain rfl := toBits_injective (ho.symm.trans hr.op)
    exact h (hr.sel hu)
  | long hr ho hs h => exact .inr (.inl ⟨rfl, ⟨hr, ho, by simp, fun _ => hs⟩, h⟩)
  | legal o hr ho hn hs hl => exact .inr (.inr ⟨o, rfl, ⟨hr, ho, hn, hs⟩, hl⟩)

theorem decode_eq_illegalCmd_iff {c : Command} :
    decode c = .illegalCmd ↔ ∀ o, ¬ InRow o c.cw := by
  rcases decode_row_cases c with ⟨e, h⟩ | ⟨e, h, -⟩ | ⟨o, e, h, -⟩
  · exact ⟨fun _ => h, fun _ => e⟩
  · exact ⟨fun e' => by simp [e] at e', fun h' => absurd h (h' _)⟩
  · exact ⟨fun e' => by simp [e] at e', fun h' => absurd h (h' _)⟩

theorem decode_eq_badLength_iff {c : Command} :
    decode c = .badLength ↔ InRow .update c.cw ∧ 32 < (cwNb c.cw).toNat := by
  rcases decode_row_cases c with ⟨e, h⟩ | ⟨e, h⟩ | ⟨o, e, h, hl⟩
  · exact ⟨fun e' => by simp [e] at e', fun h' => absurd h'.1 (h _)⟩
  · exact ⟨fun _ => h, fun _ => e⟩
  · refine ⟨fun e' => by simp [e] at e', fun ⟨hu, hn⟩ => ?_⟩
    have := hl (h.unique hu)
    omega

@[simp] theorem op_operands (o : Op) (c : Command) : (operands o c).op = o := by
  cases o <;> rfl

/-- A word of a row, with at most 32 bytes for UPDATE, is a command. -/
theorem decode_of_inRow {o : Op} {c : Command} (h : InRow o c.cw)
    (hl : o = .update → (cwNb c.cw).toNat ≤ 32) : decode c = .instr (operands o c) := by
  rcases decode_row_cases c with ⟨_, hno⟩ | ⟨_, hu, hn⟩ | ⟨o', e, h', _⟩
  · exact absurd h (hno o)
  · have := hl (h.unique hu)
    omega
  · rw [e, h.unique h']

/-- A decoded command has the operands of its word, which belongs to its row. -/
theorem inRow_of_decode {c : Command} {i : Instr} (h : decode c = .instr i) :
    i = operands i.op c ∧ InRow i.op c.cw ∧ (i.op = .update → (cwNb c.cw).toNat ≤ 32) := by
  rcases decode_row_cases c with ⟨e, _⟩ | ⟨e, _⟩ | ⟨o, e, ho, hl⟩
  · simp [e] at h
  · simp [e] at h
  · obtain rfl : operands o c = i := Decoded.instr.inj (e.symm.trans h)
    rw [op_operands]
    exact ⟨rfl, ho, hl⟩

/-- The reserved values of OP, listed (R63). -/
theorem ofBits_eq_none_iff_mem {op : BitVec 4} :
    Op.ofBits op = none
      ↔ op ∈ [0x0#4, 0x3#4, 0x7#4, 0xa#4, 0xb#4, 0xc#4, 0xd#4, 0xe#4, 0xf#4] := by
  revert op
  decide

/-- A word belongs to no row exactly when one of its fields is wrong. -/
theorem not_inRow_iff_fields {cw : BitVec 16} :
    (∀ o, ¬ InRow o cw) ↔
      (Op.ofBits (cwOp cw) = none ∨ cwRsv cw ≠ 0#4
        ∨ (cwNb cw ≠ 0#6 ∧ cwOp cw ≠ Op.toBits .update)
        ∨ (cwSel cw ≠ 0#2 ∧ cwOp cw ≠ Op.toBits .rdreg)) := by
  cases ho : Op.ofBits (cwOp cw) with
  | none => exact ⟨fun _ => .inl rfl, fun _ o h => ofBits_eq_none.mp ho o h.op⟩
  | some o =>
    have hop : cwOp cw = o.toBits := ofBits_eq_some.mp ho
    have hcode : ∀ o', cwOp cw = o'.toBits ↔ o = o' :=
      fun o' => ⟨fun h => toBits_injective (hop.symm.trans h), fun h => h ▸ hop⟩
    have hrow : (∀ o', ¬ InRow o' cw) ↔ ¬ InRow o cw :=
      ⟨fun h => h o, fun h o' h' => h ((hcode o').mp h'.op ▸ h')⟩
    have hfields : InRow o cw ↔
        cwRsv cw = 0#4 ∧ (o ≠ .update → cwNb cw = 0#6) ∧ (o ≠ .rdreg → cwSel cw = 0#2) :=
      ⟨fun h => ⟨h.rsv, h.nb, h.sel⟩, fun ⟨hr, hn, hs⟩ => ⟨hr, hop, hn, hs⟩⟩
    rw [hrow, hfields]
    simp only [ne_eq, hcode, reduceCtorEq, false_or]
    tauto

/-! ### Operands (R62, R64) -/

/-- A 256-bit vector laid out from its own lanes. -/
theorem toPort_ofPort (d : Port) : (Vec4.ofPort d).toPort = d := by
  have h2 : d.extractLsb' 192 64 ++ d.extractLsb' 128 64 = d.extractLsb' 128 128 :=
    BitVec.extractLsb'_append_extractLsb'_eq_extractLsb' rfl
  have h3 : d.extractLsb' 128 128 ++ d.extractLsb' 64 64 = d.extractLsb' 64 192 :=
    BitVec.extractLsb'_append_extractLsb'_eq_extractLsb' rfl
  have h4 : d.extractLsb' 64 192 ++ d.extractLsb' 0 64 = d.extractLsb' 0 256 :=
    BitVec.extractLsb'_append_extractLsb'_eq_extractLsb' rfl
  rw [Vec4.ofPort, Vec4.toPort, h2, h3, h4, BitVec.extractLsb'_eq_self]

/-- RESET uses every bit of DIN. -/
theorem keyOperand_inj {d d' : Port} : keyOperand d = keyOperand d' ↔ d = d' :=
  (Function.LeftInverse.injective toPort_ofPort).eq_iff

/-- The payload is bytes 0 to NB - 1 of DIN. -/
theorem payloadOperand_eq_map {nb : BitVec 6} (h : nb.toNat ≤ 32) (d : Port) :
    payloadOperand nb d = (List.range nb.toNat).map (portByte d) := by
  rw [payloadOperand, portBytes, ← List.map_take, List.take_range, Nat.min_eq_left h]

/-- UPDATE uses exactly bytes 0 to NB - 1 of DIN. -/
theorem payloadOperand_inj {nb : BitVec 6} (h : nb.toNat ≤ 32) {d d' : Port} :
    payloadOperand nb d = payloadOperand nb d' ↔ ∀ j < nb.toNat, portByte d j = portByte d' j := by
  simp only [payloadOperand_eq_map h, List.map_inj_left, List.mem_range]

theorem payloadOperand_length {nb : BitVec 6} (h : nb.toNat ≤ 32) (d : Port) :
    (payloadOperand nb d).length = nb.toNat := by
  rw [payloadOperand_eq_map h, List.length_map, List.length_range]

theorem payloadOperand_getD {nb : BitVec 6} (h : nb.toNat ≤ 32) (d : Port) {j : Nat}
    (hj : j < nb.toNat) : (payloadOperand nb d).getD j 0#8 = portByte d j := by
  simp [payloadOperand_eq_map h, List.getD_eq_getElem?_getD, hj]

/-- The key of RESET, lane by lane. -/
theorem laneOf_keyOperand (d : Port) :
    ∀ i, i < 4 → laneOf (keyOperand d) i = d.extractLsb' (64 * i) 64 :=
  forall_lane rfl rfl rfl rfl

/-- MemRead of one byte. -/
theorem memRead_one {p : List Byte} {j : Nat} (h : j < p.length) :
    memRead p j 1 = (p.getD j 0#8).toNat := by
  rw [memRead, List.drop_eq_getElem_cons h, List.take_succ_cons, List.take_zero]
  simp [leNat, List.getD_eq_getElem?_getD, h]

/-- The 8 bytes of DIN at `8i` are lane `i` of the key. -/
theorem memRead_portBytes (d : Port) {i : Nat} (hi : i < 4) :
    memRead (portBytes d) (8 * i) 8 = (laneOf (keyOperand d) i).toNat := by
  rw [← memRead_storeVec _ hi, ← portBytes_toPort, keyOperand, toPort_ofPort]

/-- DIN matters to the operands of a legal word only; every other word has one answer. -/
theorem decode_din_cases (cw : BitVec 16) (d d' : Port) :
    (∃ o, cwOp cw = o.toBits ∧ decode ⟨cw, d⟩ = .instr (operands o ⟨cw, d⟩)
      ∧ decode ⟨cw, d'⟩ = .instr (operands o ⟨cw, d'⟩))
    ∨ ((∀ i, decode ⟨cw, d⟩ ≠ .instr i) ∧ decode ⟨cw, d'⟩ = decode ⟨cw, d⟩) := by
  rcases decode_row_cases ⟨cw, d⟩ with ⟨e, h⟩ | ⟨e, h⟩ | ⟨o, e, h, hl⟩
  · exact .inr ⟨by simp [e], e ▸ decode_eq_illegalCmd_iff.mpr h⟩
  · exact .inr ⟨by simp [e], e ▸ decode_eq_badLength_iff.mpr h⟩
  · exact .inl ⟨o, h.op, e, decode_of_inRow h hl⟩

theorem decode_reset (d : Port) : decode ⟨0x0001#16, d⟩ = .instr (.reset (keyOperand d)) := by
  have e : 0x0001#16 = cwWord (Op.toBits .reset) 0#6 0#2 := by decide
  rw [e, decode_cwWord d (fun _ => rfl) (fun _ => rfl) (by decide), operands]

theorem decode_update {nb : BitVec 6} (h : nb.toNat ≤ 32) (d : Port) :
    decode ⟨cwWord 0x2#4 nb 0#2, d⟩ = .instr (.update (payloadOperand nb d)) := by
  obtain ⟨-, hn, -, -⟩ := fields_cwWord 0x2#4 nb 0#2
  have e := decode_cwWord (o := .update) (nb := nb) (sel := 0#2) d (by simp) (fun _ => rfl) h
  rwa [operands, Op.toBits, hn] at e

/-! ### What a decoded command with operands says of its word (R64) -/

theorem key_of_decode {c : Command} {key : Vec4} (h : decode c = .instr (.reset key)) :
    key = keyOperand c.din :=
  Instr.reset.inj (inRow_of_decode h).1

theorem payload_of_decode {c : Command} {x : List Byte} (h : decode c = .instr (.update x)) :
    x = payloadOperand (cwNb c.cw) c.din ∧ (cwNb c.cw).toNat ≤ 32 := by
  obtain ⟨e, -, hl⟩ := inRow_of_decode h
  exact ⟨Instr.update.inj e, hl rfl⟩

theorem sel_of_decode {c : Command} {sel : VecSel} (h : decode c = .instr (.rdreg sel)) :
    sel = VecSel.ofBits (cwSel c.cw) :=
  Instr.rdreg.inj (inRow_of_decode h).1

theorem cwNb_toNat (cw : BitVec 16) : (cwNb cw).toNat = cw.toNat / 2 ^ 4 % 2 ^ 6 := by
  rw [cwNb, BitVec.extractLsb'_toNat, Nat.shiftRight_eq_div_pow]

theorem cwSel_toNat (cw : BitVec 16) : (cwSel cw).toNat = cw.toNat / 2 ^ 10 % 2 ^ 2 := by
  rw [cwSel, BitVec.extractLsb'_toNat, Nat.shiftRight_eq_div_pow]

/-! ### The bytes of a command (R60) -/

theorem portOfBytes_portBytes (d : Port) : portOfBytes (portBytes d) = d :=
  port_ext fun _ hj => by rw [portByte_portOfBytes _ hj, portBytes_getD hj]

theorem portBytes_portOfBytes {p : List Byte} (h : p.length = 32) : portBytes (portOfBytes p) = p := by
  have e := take_portBytes_portOfBytes h.le
  rwa [h, ← portBytes_length (portOfBytes p), List.take_length] at e

/-- A word is its two bytes. -/
theorem cw_eq_bytes (cw : BitVec 16) : cw.extractLsb' 8 8 ++ cw.extractLsb' 0 8 = cw :=
  (BitVec.extractLsb'_append_extractLsb'_eq_extractLsb' rfl).trans BitVec.extractLsb'_eq_self

/-- Reading the bytes of a command gives the command back. -/
theorem ofBytes_toBytes (c : Command) : Command.ofBytes c.toBytes = some c := by
  rw [Command.toBytes, Command.ofBytes, if_pos (portBytes_length c.din), cw_eq_bytes,
    portOfBytes_portBytes]

/-- A byte string that reads as a command is the one the command writes. -/
theorem toBytes_of_ofBytes {p : List Byte} {c : Command} (h : Command.ofBytes p = some c) :
    c.toBytes = p := by
  unfold Command.ofBytes at h
  split at h
  · rename_i b0 b1 d
    split at h
    · rename_i hd
      cases h
      rw [Command.toBytes, portBytes_portOfBytes hd, BitVec.extractLsb'_append_eq_right,
        BitVec.extractLsb'_append_eq_left]
    · cases h
  · cases h

end Sys2Proof

namespace Sys2Proof.Machine

/-! ### UPDATEN (R70) -/

/-- The payloads of UPDATEN: the full packets, and the rest when there is one. -/
def packets (m : List Byte) : List (List Byte) :=
  (List.range (m.length / 32)).map (fun j => (m.drop (32 * j)).take 32)
    ++ (if m.length % 32 = 0 then [] else [m.drop (32 * (m.length / 32))])

theorem updateN_eq_map (m : List Byte) : updateN m = (packets m).map Instr.update := by
  unfold updateN packets
  split <;> simp

/-- The first `q` packets join to the first `32 q` bytes. -/
theorem flatten_full_packets (m : List Byte) (q : Nat) :
    ((List.range q).map (fun j => (m.drop (32 * j)).take 32)).flatten = m.take (32 * q) := by
  induction q with
  | zero => simp
  | succ q ih =>
    rw [List.range_succ, List.map_append, List.flatten_append, ih, Nat.mul_succ, List.take_add]
    simp

theorem packets_flatten (m : List Byte) : (packets m).flatten = m := by
  rw [packets, List.flatten_append, flatten_full_packets]
  split
  · rw [List.flatten_nil, List.append_nil, List.take_of_length_le (by omega)]
  · rw [List.flatten_singleton, List.take_append_drop]

theorem packets_length (m : List Byte) : (packets m).length = (m.length + 31) / 32 := by
  rw [packets, List.length_append, List.length_map, List.length_range]
  split
  · rw [List.length_nil]
    omega
  · rw [List.length_singleton]
    omega

theorem packets_getD_full (m : List Byte) {j : Nat} (hj : j < m.length / 32) :
    (packets m).getD j [] = (m.drop (32 * j)).take 32 := by
  rw [packets, List.getD_append _ _ _ _ (by simpa using hj)]
  simp [List.getD_eq_getElem?_getD, hj]

theorem packets_getD_rest (m : List Byte) (h : m.length % 32 ≠ 0) :
    (packets m).getD (m.length / 32) [] = m.drop (32 * (m.length / 32)) := by
  rw [packets, List.getD_append_right _ _ _ _ (by simp), if_neg h]
  simp

/-! ### Responses (R66) -/

theorem wf_of_no_error (d : Port) : Response.Wf ⟨false, none, d⟩ := ⟨by simp, by simp⟩

theorem wf_of_error (c : Cause) : Response.Wf ⟨true, some c, 0#256⟩ := ⟨by simp, fun _ => rfl⟩

theorem not_mem_finCommands_update (x : List Byte) : Instr.update x ∉ finCommands := by
  simp [finCommands]

/-- A command answers one response of the form of R66 and takes nothing more from the host; an UPDATE
shows nothing, whether it completes or not. -/
theorem exec_response (i : Instr) (s : State) :
    ∃ (t : State) (r : Response), exec i s = .next t ∧ t.rsp = some r ∧ t.host = s.host ∧ r.Wf
      ∧ ∀ x, i = .update x → r.dout = 0#256 := by
  obtain ⟨t, e, h⟩ := exec_effect i s
  cases h with
  | error c => exact ⟨_, _, e, rfl, rfl, wf_of_error c, fun _ _ => rfl⟩
  | load key h => exact ⟨_, _, e, rfl, rfl, wf_of_no_error _, fun _ _ => rfl⟩
  | consume x h hx hp => exact ⟨_, _, e, rfl, absorb_host x s, wf_of_no_error _, fun _ _ => rfl⟩
  | finish n f h hp =>
    refine ⟨_, _, e, rfl, rfl, wf_of_no_error _, ?_⟩
    rintro x rfl
    exact absurd h (not_mem_finCommands_update x)
  | show_ d h =>
    refine ⟨_, _, e, rfl, rfl, wf_of_no_error _, ?_⟩
    rintro x rfl
    simp at h

theorem exec_reset_rsp {key : Vec4} {s t : State} (h : exec (.reset key) s = .next t) :
    t.rsp = some ⟨false, none, 0#256⟩ := by
  cases (exec_reset_eq s key).symm.trans h
  rfl

/-- Every command word answers one response of the form of R66, RESET without error. -/
theorem answer_response (c : Command) (s : State) :
    ∃ (t : State) (r : Response), answer c s = .next t ∧ t.rsp = some r ∧ t.host = s.host ∧ r.Wf
      ∧ (∀ key, decode c = .instr (.reset key) → r.errf = false ∧ r.dout = 0#256)
      ∧ ∀ x, decode c = .instr (.update x) → r.dout = 0#256 := by
  unfold answer
  cases hd : decode c with
  | illegalCmd => exact ⟨_, _, raise_eq _ _, rfl, rfl, wf_of_error _, nofun, nofun⟩
  | badLength => exact ⟨_, _, raise_eq _ _, rfl, rfl, wf_of_error _, nofun, nofun⟩
  | instr i =>
    obtain ⟨t, r, e, hr, hh, hwf, hu⟩ := exec_response i s
    refine ⟨t, r, e, hr, hh, hwf, fun key hk => ?_, fun x hx => hu x (Decoded.instr.inj hx)⟩
    cases hk
    cases hr.symm.trans (exec_reset_rsp e)
    exact ⟨rfl, rfl⟩

/-- The status byte is CODE above ERRF. -/
theorem status_byte_eq (k : BitVec 3) (e : Bool) :
    (0#4 ++ k ++ BitVec.ofBool e : BitVec 8) = (k.setWidth 8 <<< 1) ||| (if e then 1#8 else 0#8) := by
  revert k e
  decide

/-! ### The statements -/

/-- Settles O15: fields, rows and the decoder's answer each say which `InRow` holds. -/
theorem decoderAnswersByFieldsAndByRows : Obligations.DecoderAnswersByFieldsAndByRows := by
  intro c
  refine ⟨?_, ?_, ?_, fun i hi => ?_⟩
  · rw [decode_eq_illegalCmd_iff, not_inRow_iff_fields, ofBits_eq_none_iff_mem]
    rfl
  · rw [decode_eq_illegalCmd_iff]
    constructor
    · intro h r hr hm
      obtain ⟨o, rfl⟩ := mem_opRows.mp hr
      exact h o (rowOf_match.mp hm)
    · intro h o ho
      exact h _ (mem_opRows.mpr ⟨o, rfl⟩) (rowOf_match.mpr ho)
  · rw [decode_eq_badLength_iff, ← rowOf_match]
    rfl
  · obtain ⟨-, ho, -⟩ := inRow_of_decode hi
    refine ⟨rowOf i.op, mem_opRows.mpr ⟨_, rfl⟩, rowOf_match.mpr ho, rfl, fun r' hr' hm => ?_⟩
    obtain ⟨o', rfl⟩ := mem_opRows.mp hr'
    rw [ho.unique (rowOf_match.mp hm)]

/-- Settles O18: DIN reaches the answer only through the operands. -/
theorem dinIsUsedAsTheFormatSays : Obligations.DinIsUsedAsTheFormatSays := by
  intro cw d d'
  refine ⟨fun hr hu => ?_, fun hno => ?_, ?_, fun nb hnb => ?_⟩
  · rcases decode_din_cases cw d d' with ⟨o, ho, e, e'⟩ | ⟨-, e⟩
    · rw [e, e']
      cases o with
      | reset => exact absurd ho hr
      | update => exact absurd ho hu
      | fin64 | fin128 | fin256 | rdst | rdreg => rfl
    · exact e.symm
  · rcases decode_din_cases cw d d' with ⟨o, -, e, -⟩ | ⟨-, e⟩
    · exact absurd e (hno _)
    · exact e
  · rw [decode_reset, decode_reset, Decoded.instr.injEq, Instr.reset.injEq, keyOperand_inj]
  · rw [decode_update hnb, decode_update hnb, Decoded.instr.injEq, Instr.update.injEq,
      payloadOperand_inj hnb]
    rfl

/-- Settles O19, operand by operand. -/
theorem operandsAreLittleEndianReadsOfDin : Obligations.OperandsAreLittleEndianReadsOfDin := by
  refine ⟨fun cw => ⟨cwNb_toNat cw, cwSel_toNat cw⟩, fun c key h i hi => ?_, fun c x h => ?_,
    fun c sel h => ?_⟩
  · rw [key_of_decode h]
    exact ⟨laneOf_keyOperand c.din i hi, (memRead_portBytes c.din hi).symm⟩
  · obtain ⟨rfl, hnb⟩ := payload_of_decode h
    rw [payloadOperand_length hnb]
    refine ⟨rfl, fun j hj => ?_⟩
    rw [payloadOperand_getD hnb _ hj, memRead_one (by simp; omega), portBytes_getD (by omega)]
    exact ⟨rfl, rfl⟩
  · rw [sel_of_decode h, vecSel_toBits_ofBits]

/-- Settles O20: each of the two readings undoes the other. -/
theorem commandBytesRoundTrip : Obligations.CommandBytesRoundTrip := by
  refine ⟨fun c => ⟨?_, ofBytes_toBytes c, rfl, rfl, fun j hj => ?_⟩,
    fun p c => toBytes_of_ofBytes⟩
  · simp [Command.toBytes]
  · rw [Command.toBytes, Nat.add_comm, List.getD_cons_succ, List.getD_cons_succ, portBytes_getD hj,
      portByte]

/-- Settles O21, with `packets` as the list of payloads. -/
theorem updateNCutsIntoPackets : Obligations.UpdateNCutsIntoPackets := by
  intro m
  refine ⟨packets m, updateN_eq_map m, packets_flatten m, packets_length m, fun j hj => ?_,
    fun h => ?_⟩
  · rw [packets_getD_full m hj, List.length_take, List.length_drop]
    omega
  · rw [packets_getD_rest m h, List.length_drop]
    omega

/-- Settles O23, from the response of `answer` and the byte form of a response. -/
theorem everyCommandIsAnswered : Obligations.EveryCommandIsAnswered := by
  refine ⟨fun s c rest h => ?_, fun r => ⟨?_, status_byte_eq _ _, fun j hj => ?_⟩⟩
  · obtain ⟨t, r, e, hr, hh, hwf, hreset, hupdate⟩ := answer_response c (setHost rest s)
    refine ⟨t, r, (step_command h).trans e, hr, hh, fun h0 => ?_,
      fun h1 => ⟨hwf.code_iff.mp h1, hwf.dout_zero h1⟩, hreset, hupdate⟩
    by_contra hc
    rw [hwf.code_iff.mpr hc] at h0
    cases h0
  · simp [Response.toBytes]
  · rw [Nat.add_comm, Response.toBytes, List.getD_cons_succ, portBytes_getD hj, portByte]

end Sys2Proof.Machine

/-! Family 40_lane_ops.md: each operation of the datapath read lane by lane, half by half and byte by byte,
the inverse of ZIPPER, and the packet as a little-endian sum. -/

namespace Sys2Proof.Machine

/-! ### Lane by lane (R82 to R89) -/

@[simp] theorem laneOf_mapLanes (f : U64 → U64) (v : Vec4) :
    ∀ i, laneOf (mapLanes f v) i = f (laneOf v i)
  | 0 => rfl
  | 1 => rfl
  | 2 => rfl
  | _ + 3 => rfl

@[simp] theorem laneOf_zipLanes (f : U64 → U64 → U64) (a b : Vec4) :
    ∀ i, laneOf (zipLanes f a b) i = f (laneOf a i) (laneOf b i)
  | 0 => rfl
  | 1 => rfl
  | 2 => rfl
  | _ + 3 => rfl

@[simp] theorem laneOf_add4 (a b : Vec4) (i : Nat) : laneOf (add4 a b) i = laneOf a i + laneOf b i :=
  laneOf_zipLanes _ a b i

@[simp] theorem laneOf_xor4 (a b : Vec4) (i : Nat) :
    laneOf (xor4 a b) i = laneOf a i ^^^ laneOf b i :=
  laneOf_zipLanes _ a b i

@[simp] theorem laneOf_and4 (a b : Vec4) (i : Nat) :
    laneOf (and4 a b) i = laneOf a i &&& laneOf b i :=
  laneOf_zipLanes _ a b i

@[simp] theorem laneOf_or4 (a b : Vec4) (i : Nat) :
    laneOf (or4 a b) i = laneOf a i ||| laneOf b i :=
  laneOf_zipLanes _ a b i

@[simp] theorem laneOf_xor3 (a b c : Vec4) (i : Nat) :
    laneOf (xor3 a b c) i = laneOf a i ^^^ laneOf b i ^^^ laneOf c i := by
  rw [xor3, laneOf_xor4, laneOf_xor4]

@[simp] theorem laneOf_shl4 (n : Fin 64) (v : Vec4) (i : Nat) :
    laneOf (shl4 n v) i = laneOf v i <<< n.val :=
  laneOf_mapLanes _ v i

@[simp] theorem laneOf_shr4 (n : Fin 64) (v : Vec4) (i : Nat) :
    laneOf (shr4 n v) i = laneOf v i >>> n.val :=
  laneOf_mapLanes _ v i

/-! ### Halves of a lane (R90, R92, R93, R98) -/

/-- A lane is its two 32-bit halves. -/
theorem halves_append (x : U64) : x.extractLsb' 32 32 ++ x.extractLsb' 0 32 = x :=
  (BitVec.extractLsb'_append_extractLsb'_eq_extractLsb' rfl).trans BitVec.extractLsb'_eq_self

@[simp] theorem laneOf_rot32 (v : Vec4) (k i : Nat) :
    laneOf (rot32 v k) i
      = ((laneOf v i).extractLsb' 32 32).rotateLeft k ++ ((laneOf v i).extractLsb' 0 32).rotateLeft k := by
  rw [rot32, laneOf_mapLanes, rotl32_eq_rotateLeft, rotl32_eq_rotateLeft]

@[simp] theorem swapHalves_low (x : U64) : (swapHalves x).extractLsb' 0 32 = x.extractLsb' 32 32 := by
  rw [swapHalves_eq, BitVec.extractLsb'_append_eq_right]

@[simp] theorem swapHalves_high (x : U64) : (swapHalves x).extractLsb' 32 32 = x.extractLsb' 0 32 := by
  rw [swapHalves_eq, BitVec.extractLsb'_append_eq_left]

@[simp] theorem swapHalves_swapHalves (x : U64) : swapHalves (swapHalves x) = x := by
  rw [swapHalves_eq (swapHalves x), swapHalves_low, swapHalves_high, halves_append]

@[simp] theorem laneOf_rot64by32 (v : Vec4) (i : Nat) :
    laneOf (rot64by32 v) i = swapHalves (laneOf v i) :=
  laneOf_mapLanes _ v i

theorem laneOf_permute (v : Vec4) :
    ∀ i, i < 4 → laneOf (permute v) i = swapHalves (laneOf v ((i + 2) % 4)) :=
  forall_lane rfl rfl rfl rfl

theorem rot64by32_rot64by32 (v : Vec4) : rot64by32 (rot64by32 v) = v :=
  vec4_ext fun i _ => by rw [laneOf_rot64by32, laneOf_rot64by32, swapHalves_swapHalves]

/-- Two steps of two lanes lead back to the lane they started from. -/
theorem permute_permute (v : Vec4) : permute (permute v) = v :=
  vec4_ext fun i hi => by
    have hback : ((i + 2) % 4 + 2) % 4 = i := by omega
    rw [laneOf_permute _ i hi, laneOf_permute _ _ (Nat.mod_lt _ (by omega)), swapHalves_swapHalves, hback]

theorem laneOf_broadcast32 (r : Nat) :
    ∀ i, laneOf (broadcast32 r) i = BitVec.ofNat 64 (r * 2 ^ 32 + r)
  | 0 => rfl
  | 1 => rfl
  | 2 => rfl
  | _ + 3 => rfl

/-! ### Products of halves (R94) -/

theorem low32_toNat (x : U64) : (low32 x).toNat = x.toNat % 2 ^ 32 := by
  rw [low32, BitVec.toNat_and]
  exact Nat.and_two_pow_sub_one_eq_mod x.toNat 32

theorem high32_toNat (x : U64) : (high32 x).toNat = x.toNat / 2 ^ 32 := by
  rw [high32, BitVec.toNat_ushiftRight, Nat.shiftRight_eq_div_pow]

@[simp] theorem laneOf_mul32 (a b : Vec4) (i : Nat) :
    laneOf (mul32 a b) i = low32 (laneOf a i) * high32 (laneOf b i) :=
  laneOf_zipLanes _ a b i

/-- The product of two 32-bit halves fits in a lane. -/
theorem low32_mul_high32_toNat (x y : U64) :
    (low32 x * high32 y).toNat = (x.toNat % 2 ^ 32) * (y.toNat / 2 ^ 32) := by
  have hx : x.toNat % 2 ^ 32 < 2 ^ 32 := Nat.mod_lt _ (by omega)
  have hy : y.toNat / 2 ^ 32 < 2 ^ 32 := by omega
  have hlt : (x.toNat % 2 ^ 32) * (y.toNat / 2 ^ 32) < 2 ^ 32 * 2 ^ 32 := Nat.mul_lt_mul'' hx hy
  rw [BitVec.toNat_mul, low32_toNat, high32_toNat]
  exact Nat.mod_eq_of_lt hlt

/-! ### Packets (R95, R96) -/

/-- A byte string read as a number is the sum of its bytes, each at its place. -/
theorem leNat_take_eq_sum (p : List Byte) (n : Nat) :
    leNat (p.take n) = ∑ k ∈ Finset.range n, (p.getD k 0#8).toNat * 2 ^ (8 * k) := by
  induction p generalizing n with
  | nil => simp [leNat]
  | cons b bs ih =>
    cases n with
    | zero => rfl
    | succ n =>
      have hplace (k : Nat) : 2 ^ (8 * (k + 1)) = 256 * 2 ^ (8 * k) := by
        rw [Nat.mul_succ, Nat.add_comm, pow_add]
        rfl
      rw [List.take_succ_cons, leNat, ih, Finset.sum_range_succ', Nat.add_comm, Finset.mul_sum]
      simp only [List.getD_cons_succ, List.getD_cons_zero, hplace, Nat.mul_zero, pow_zero, Nat.mul_one,
        Nat.mul_left_comm]

/-- MemRead is the little-endian sum of the bytes it reads (R13). -/
theorem memRead_eq_sum (p : List Byte) (a n : Nat) :
    memRead p a n = ∑ k ∈ Finset.range n, (p.getD (a + k) 0#8).toNat * 2 ^ (8 * k) := by
  simp only [memRead, leNat_take_eq_sum, List.getD_eq_getElem?_getD, List.getElem?_drop]

/-- A lane of a packet holds its 8 bytes with nothing cut off. -/
theorem laneOf_loadPacket_toNat (p : List Byte) {i : Nat} (hi : i < 4) :
    (laneOf (loadPacket p) i).toNat = memRead p (8 * i) 8 := by
  have hlt : leNat ((p.drop (8 * i)).take 8) < 256 ^ 8 :=
    (leNat_lt _).trans_le (Nat.pow_le_pow_right (by omega) (List.length_take_le _ _))
  rw [laneOf_loadPacket p i hi, BitVec.toNat_ofNat]
  exact Nat.mod_eq_of_lt hlt

/-- A byte of a lane is the lane shifted down and masked (R96). -/
theorem extract_byte_eq_shift_and_mask (x : U64) (n : Nat) :
    x.extractLsb' n 8 = ((x >>> n) &&& 0xff#64).setWidth 8 := by
  have hmask : (0xff#64).setWidth 8 = BitVec.allOnes 8 := rfl
  rw [BitVec.setWidth_and, hmask, BitVec.and_allOnes]
  rfl

/-- Storing what was loaded gives the 32 bytes back. -/
theorem storeVec_loadPacket {p : List Byte} (h : p.length = 32) : storeVec (loadPacket p) = p := by
  refine List.ext_getElem (by simp [h]) fun j h1 h2 => ?_
  rw [← List.getD_eq_getElem _ 0#8 h1, ← List.getD_eq_getElem _ 0#8 h2, storeVec_getD (by omega),
    vecByte_loadPacket p (by omega)]

/-! ### ZIPPER (R91) -/

/-- Two vectors with the same bytes in each 128-bit half are equal. -/
theorem halfByte_ext {x y : Vec4}
    (e : ∀ h j, h < 2 → j < 16 → vecByte x (16 * h + j) = vecByte y (16 * h + j)) : x = y :=
  vecByte_ext fun j hj => by
    have hsplit : 16 * (j / 16) + j % 16 = j := Nat.div_add_mod j 16
    rw [← hsplit]
    exact e _ _ (by omega) (Nat.mod_lt _ (by omega))

/-- Byte `k` of a 128-bit half is a byte of one of the half's two lanes. -/
theorem vecByte_half (v : Vec4) (h k : Nat) :
    vecByte v (16 * h + k) = (laneOf v (2 * h + k / 8)).extractLsb' (8 * (k % 8)) 8 := by
  rw [← vecByte_lane v (Nat.mod_lt k (by omega)), show 8 * (2 * h + k / 8) + k % 8 = 16 * h + k by omega]

/-- Byte `k` of lane `g` of a half after ZIPPER, on the lanes that R91 calls `lo` and `hi`. -/
theorem laneByte_zipper (v : Vec4) {h g k : Nat} (hh : h < 2) (hg : g < 2) (hk : k < 8) :
    (laneOf (zipper v) (2 * h + g)).extractLsb' (8 * k) 8
      = (laneOf v (2 * h + zipIndex.getD (8 * g + k) 0 / 8)).extractLsb'
          (8 * (zipIndex.getD (8 * g + k) 0 % 8)) 8 := by
  rw [← vecByte_half, ← vecByte_zipper v hh (by omega), ← vecByte_lane _ hk,
    show 8 * (2 * h + g) + k = 16 * h + (8 * g + k) by omega]

/-- A lane is its eight bytes, the highest written first. -/
theorem lane_eq_append_bytes {x : U64} {b : Nat → Byte}
    (e : ∀ k < 8, x.extractLsb' (8 * k) 8 = b k) :
    x = b 7 ++ b 6 ++ b 5 ++ b 4 ++ b 3 ++ b 2 ++ b 1 ++ b 0 := by
  have join {s n : Nat} : x.extractLsb' (s + 8) n ++ x.extractLsb' s 8 = x.extractLsb' s (n + 8) :=
    BitVec.extractLsb'_append_extractLsb'_eq_extractLsb' rfl
  rw [← e 7 (by omega), ← e 6 (by omega), ← e 5 (by omega), ← e 4 (by omega), ← e 3 (by omega),
    ← e 2 (by omega), ← e 1 (by omega), ← e 0 (by omega), join (s := 8 * 6), join (s := 8 * 5),
    join (s := 8 * 4), join (s := 8 * 3), join (s := 8 * 2), join (s := 8 * 1), join (s := 8 * 0),
    BitVec.extractLsb'_eq_self]

/-- Where ZIPPER puts each byte of a half: the inverse of the index list. -/
def unzipIndex : List Nat := [7, 5, 2, 0, 9, 3, 13, 15, 14, 12, 10, 8, 1, 11, 4, 6]

theorem unzipIndex_getD_lt : ∀ j < 16, unzipIndex.getD j 0 < 16 := by decide

theorem zipIndex_unzipIndex : ∀ j < 16, zipIndex.getD (unzipIndex.getD j 0) 0 = j := by decide

theorem unzipIndex_zipIndex : ∀ j < 16, unzipIndex.getD (zipIndex.getD j 0) 0 = j := by decide

/-- The inverse of ZIPPER. -/
def unzipper (v : Vec4) : Vec4 :=
  loadPacket ((List.range 32).map fun j => vecByte v (16 * (j / 16) + unzipIndex.getD (j % 16) 0))

theorem vecByte_unzipper (v : Vec4) {h j : Nat} (hh : h < 2) (hj : j < 16) :
    vecByte (unzipper v) (16 * h + j) = vecByte v (16 * h + unzipIndex.getD j 0) := by
  have hlt : 16 * h + j < 32 := by omega
  have hdiv : (16 * h + j) / 16 = h := by omega
  have hmod : (16 * h + j) % 16 = j := by omega
  rw [unzipper, vecByte_loadPacket _ hlt, List.getD_eq_getElem _ _ (by simpa using hlt), List.getElem_map,
    List.getElem_range, hdiv, hmod]

theorem unzipper_zipper (v : Vec4) : unzipper (zipper v) = v :=
  halfByte_ext fun h j hh hj => by
    rw [vecByte_unzipper _ hh hj, vecByte_zipper _ hh (unzipIndex_getD_lt j hj), zipIndex_unzipIndex j hj]

theorem zipper_unzipper (v : Vec4) : zipper (unzipper v) = v :=
  halfByte_ext fun h j hh hj => by
    rw [vecByte_zipper _ hh hj, vecByte_unzipper _ hh (zipIndex_getD_lt j hj), unzipIndex_zipIndex j hj]

theorem zipper_bijective : Function.Bijective zipper :=
  Function.bijective_iff_has_inverse.mpr ⟨unzipper, unzipper_zipper, zipper_unzipper⟩

/-- Byte 0 of a vector that went through ZIPPER twice is byte 5, since ZIDX[0] = 3 and ZIDX[3] = 5. -/
theorem vecByte_zipper_zipper_zero (v : Vec4) : vecByte (zipper (zipper v)) 0 = vecByte v 5 :=
  (vecByte_zipper (zipper v) (h := 0) (j := 0) (by omega) (by omega)).trans
    (vecByte_zipper v (h := 0) (j := 3) (by omega) (by omega))

/-! ### The statements -/

/-- Settles O2, from the lane that ROT32 makes of the two rotated halves. -/
theorem rot32RotatesEachHalfAlone : Obligations.Rot32RotatesEachHalfAlone := by
  intro v k i _
  rw [laneOf_rot32]
  exact ⟨BitVec.extractLsb'_append_eq_right, BitVec.extractLsb'_append_eq_left⟩

/-- Settles O3, from the bytes of each lane of ZIPPER and from its inverse; the vector of the last clause has
byte 0 set and byte 5 clear. -/
theorem zipperPermutesBytesWithinHalves : Obligations.ZipperPermutesBytesWithinHalves := by
  refine ⟨fun v h j => vecByte_zipper v, fun v h hh => ?_, zipper_bijective, ⟨1#64, 0#64, 0#64, 0#64⟩,
    fun e => ?_⟩
  · have lane {g : Nat} (hg : g < 2) := lane_eq_append_bytes fun k => laneByte_zipper v (k := k) hh hg
    exact ⟨lane (g := 0) (by omega), lane (g := 1) (by omega)⟩
  · have hbyte := vecByte_zipper_zipper_zero ⟨1#64, 0#64, 0#64, 0#64⟩
    rw [e] at hbyte
    exact absurd hbyte (by decide)

/-- Settles O4, from the half-word swap of one lane. -/
theorem permuteEnginesMoveHalvesAndAreInvolutions :
    Obligations.PermuteEnginesMoveHalvesAndAreInvolutions := by
  refine ⟨fun v i hi => ?_, rot64by32_rot64by32, permute_permute⟩
  rw [laneOf_rot64by32, laneOf_permute v i hi]
  exact ⟨swapHalves_low _, swapHalves_high _, swapHalves_low _, swapHalves_high _⟩

/-- Settles O5: the product of two 32-bit numbers is below `2 ^ 64`. -/
theorem mul32IsTheExactProduct : Obligations.Mul32IsTheExactProduct := by
  intro a b i _
  rw [laneOf_mul32, low32_mul_high32_toNat]

/-- Settles O6, from the little-endian sum that MemRead is and from the bytes of a vector. -/
theorem loadPacketAndStoreVecAreInverse : Obligations.LoadPacketAndStoreVecAreInverse := by
  refine ⟨fun p i _ hi => ?_, fun v i k hi hk => ?_, loadPacket_storeVec, fun p => storeVec_loadPacket⟩
  · rw [laneOf_loadPacket_toNat p hi, memRead_eq_sum]
  · rw [storeVec_getD (by omega), vecByte_lane v hk, extract_byte_eq_shift_and_mask]

/-- Settles O1, from what each operation does to one lane. -/
theorem laneArithmeticIsExactThenTruncated : Obligations.LaneArithmeticIsExactThenTruncated := by
  refine ⟨fun a b i _ => ⟨?_, laneOf_xor4 a b i, laneOf_and4 a b i, laneOf_or4 a b i⟩,
    fun a b c i _ => laneOf_xor3 a b c i, fun n v i _ => ⟨?_, ?_⟩, fun _ => rfl⟩
  · rw [laneOf_add4, BitVec.toNat_add]
  · rw [laneOf_shl4, BitVec.toNat_shiftLeft, Nat.shiftLeft_eq]
  · rw [laneOf_shr4, BitVec.toNat_ushiftRight, Nat.shiftRight_eq_div_pow]

/-- Settles O7: a lane of BROADCAST32 is `r` joined to itself. -/
theorem broadcast32FillsEveryElement : Obligations.Broadcast32FillsEveryElement := by
  intro r i hr _
  have hval : (laneOf (broadcast32 r) i).toNat = r * 2 ^ 32 + r := by
    rw [laneOf_broadcast32, BitVec.toNat_ofNat]
    omega
  refine ⟨hval, BitVec.eq_of_toNat_eq ?_, BitVec.eq_of_toNat_eq ?_⟩
  · rw [BitVec.extractLsb'_toNat, hval, BitVec.toNat_ofNat, Nat.shiftRight_zero, Nat.mul_add_mod']
  · rw [BitVec.extractLsb'_toNat, hval, BitVec.toNat_ofNat, Nat.shiftRight_eq_div_pow, Nat.mul_comm,
      Nat.mul_add_div (by omega), Nat.div_eq_of_lt (by omega), Nat.add_zero]

end Sys2Proof.Machine

/-! Family 41_reset.md: the words of the commands whose format fixes every bit, and what RESET writes. -/

namespace Sys2Proof.Machine

/-- A command that uses neither NB nor SEL has one word: every other one with its operation code has a
field that should be zero and is not (R65). -/
theorem onlyWord_of_fixed_fields {o : Op} (hu : o ≠ .update) (hr : o ≠ .rdreg) :
    OnlyWord o.toBits (cwWord o.toBits 0#6 0#2) := by
  intro c hop hne
  refine decode_eq_illegalCmd_iff.mpr fun o' h => hne ?_
  obtain rfl : o' = o := toBits_injective (h.op.symm.trans hop)
  rw [eq_cwWord h.rsv, h.op, h.nb hu, h.sel hr]

/-- Settles O25: the operations of RESET applied one after another, the word of RESET, and the words of a
command with fixed fields. -/
theorem resetLoadsTheKeyInEveryPhase : Obligations.ResetLoadsTheKeyInEveryPhase := by
  have hword : cwWord (Op.toBits .reset) 0#6 0#2 = 0x0001#16 := by decide
  refine ⟨fun key s => exec_reset_eq s key, decode_reset, ?_⟩
  rw [← hword]
  exact onlyWord_of_fixed_fields (o := .reset) (by decide) (by decide)

end Sys2Proof.Machine

/-! Family 42_update.md: the round and its six steps, the remainder packet byte by byte, and the UPDATE
command with its words. -/

namespace Sys2Proof.Machine

/-! ### The round (R120) -/

theorem hashRound_mul0 (a : Vec4) (b : LaneBlock) :
    (hashRound a b).mul0 = xor4 b.mul0 (mul32 (add4 b.v1 (add4 b.mul0 a)) b.v0) := rfl

theorem hashRound_mul1 (a : Vec4) (b : LaneBlock) :
    (hashRound a b).mul1
      = xor4 b.mul1 (mul32 (add4 b.v0 b.mul1) (add4 b.v1 (add4 b.mul0 a))) := rfl

theorem hashRound_v0 (a : Vec4) (b : LaneBlock) :
    (hashRound a b).v0
      = add4 (add4 b.v0 b.mul1) (zipper (add4 b.v1 (add4 b.mul0 a))) := rfl

theorem hashRound_v1 (a : Vec4) (b : LaneBlock) :
    (hashRound a b).v1
      = add4 (add4 b.v1 (add4 b.mul0 a)) (zipper (hashRound a b).v0) := rfl

/-- A vector whose lanes are known is the four lanes written out. -/
theorem eq_of_lanes {v : Vec4} {w : Nat → U64} (h : ∀ i, laneOf v i = w i) :
    v = ⟨w 0, w 1, w 2, w 3⟩ :=
  vec4_ext (forall_lane (h 0) (h 1) (h 2) (h 3))

/-! ### The remainder packet (R127) -/

/-- A head, zeros up to offset `m`, and a tail from there. -/
def padTo (m : Nat) (head tail : List Byte) : List Byte :=
  head ++ List.replicate (m - head.length) 0#8 ++ tail

section
variable {m : Nat} {head tail : List Byte}

theorem padTo_length (h : head.length ≤ m) : (padTo m head tail).length = m + tail.length := by
  simp only [padTo, List.length_append, List.length_replicate]
  omega

theorem padTo_getD_head {k : Nat} (h : k < head.length) :
    (padTo m head tail).getD k 0#8 = head.getD k 0#8 := by
  rw [padTo, List.append_assoc, List.getD_append _ _ _ _ h]

theorem padTo_getD_gap {k : Nat} (h : head.length ≤ k) (hk : k < m) :
    (padTo m head tail).getD k 0#8 = 0#8 := by
  have hlen : k < (head ++ List.replicate (m - head.length) 0#8).length := by
    rw [List.length_append, List.length_replicate]
    omega
  rw [padTo, List.getD_append _ _ _ _ hlen, List.getD_append_right _ _ _ _ h,
    List.getD_replicate _ (by omega)]

theorem padTo_getD_tail (h : head.length ≤ m) (k : Nat) :
    (padTo m head tail).getD (m + k) 0#8 = tail.getD k 0#8 := by
  have hlen : (head ++ List.replicate (m - head.length) 0#8).length = m := by
    rw [List.length_append, List.length_replicate]
    omega
  rw [padTo, List.getD_append_right _ _ _ _ (by omega), hlen, Nat.add_sub_cancel_left]

end

/-- The whole 32-bit elements of a remainder: its first `r & ~3` bytes. -/
def wholeElements (p : List Byte) : List Byte := p.take (p.length - p.length % 4)

/-- Bytes 16, 17 and 18 of the packet of a remainder of fewer than 16 bytes: what is left after the whole
elements, read at three places, or zeros when nothing is left. -/
def leftOver (p : List Byte) : List Byte :=
  [if p.length % 4 = 0 then 0#8 else p.getD (p.length - p.length % 4) 0#8,
   if p.length % 4 = 0 then 0#8 else p.getD (p.length - p.length % 4 + p.length % 4 / 2) 0#8,
   if p.length % 4 = 0 then 0#8 else p.getD (p.length - p.length % 4 + p.length % 4 - 1) 0#8]

@[simp] theorem wholeElements_length (p : List Byte) :
    (wholeElements p).length = p.length - p.length % 4 := by
  rw [wholeElements, List.length_take]
  omega

theorem wholeElements_getD {p : List Byte} {k : Nat} (h : k < p.length - p.length % 4) :
    (wholeElements p).getD k 0#8 = p.getD k 0#8 := by
  rw [wholeElements, List.getD_eq_getElem?_getD, List.getElem?_take_of_lt h,
    ← List.getD_eq_getElem?_getD]

theorem leftOver_length (p : List Byte) : (leftOver p).length = 3 := rfl

/-- The whole elements end at a multiple of 4. -/
theorem wholeElements_length_le {p : List Byte} {n : Nat} (h : p.length < 4 * n + 4) :
    (wholeElements p).length ≤ 4 * n := by
  rw [wholeElements_length]
  omega

/-- The packet of 16 bytes or more ends with the last four bytes. -/
theorem remainderPacket_of_long {p : List Byte} (h : 16 ≤ p.length) :
    remainderPacket p = padTo 28 (wholeElements p) (p.drop (p.length - 4)) := by
  rw [remainderPacket, if_pos h, Nat.mul_div_self_eq_mod_sub_self, padTo, wholeElements_length,
    wholeElements]

/-- The packet of fewer than 16 bytes has the left-over bytes at offset 16. -/
theorem remainderPacket_of_short {p : List Byte} (h : p.length < 16) :
    remainderPacket p = padTo 16 (wholeElements p) (leftOver p ++ List.replicate 13 0#8) := by
  rw [remainderPacket, if_neg (by omega), Nat.mul_div_self_eq_mod_sub_self, padTo,
    wholeElements_length, ← wholeElements]
  by_cases ht : p.length % 4 = 0
  · have hleft : leftOver p = List.replicate 3 0#8 := by simp [leftOver, ht]
    have hlen : 16 - (p.length - p.length % 4) + (3 + 13) = 32 - (p.length - p.length % 4) := by omega
    rw [if_neg (not_not_intro ht), hleft, List.append_assoc, List.replicate_append_replicate,
      List.replicate_append_replicate, hlen]
  · rw [if_pos ht, List.append_assoc]
    simp only [leftOver, if_neg ht]

/-- The short packet read at offset 16: the three left-over bytes, then zeros. -/
theorem remainderPacket_getD_leftOver {p : List Byte} (h : p.length < 16) {k : Nat} (hk : k < 3) :
    (remainderPacket p).getD (16 + k) 0#8 = (leftOver p).getD k 0#8 := by
  rw [remainderPacket_of_short h, padTo_getD_tail (wholeElements_length_le (n := 4) (by omega)),
    List.getD_append _ _ _ _ (by rwa [leftOver_length])]

theorem remainderPacket_getD_end {p : List Byte} (h : p.length < 16) {k : Nat} (hk : 19 ≤ k)
    (hk' : k < 32) : (remainderPacket p).getD k 0#8 = 0#8 := by
  obtain ⟨n, rfl⟩ := Nat.exists_eq_add_of_le (show 16 ≤ k by omega)
  rw [remainderPacket_of_short h, padTo_getD_tail (wholeElements_length_le (n := 4) (by omega)),
    List.getD_append_right _ _ _ _ (by rw [leftOver_length]; omega), leftOver_length,
    List.getD_replicate _ (by omega)]

/-- The long packet read at offset 28: the last four bytes of the remainder. -/
theorem remainderPacket_getD_last {p : List Byte} (h : 16 ≤ p.length) (h' : p.length ≤ 31) (k : Nat) :
    (remainderPacket p).getD (28 + k) 0#8 = p.getD (p.length - 4 + k) 0#8 := by
  rw [remainderPacket_of_long h, padTo_getD_tail (wholeElements_length_le (n := 7) (by omega)),
    List.getD_eq_getElem?_getD, List.getElem?_drop, ← List.getD_eq_getElem?_getD]

theorem remainderPacket_length {p : List Byte} (h : p.length ≤ 31) :
    (remainderPacket p).length = 32 := by
  rcases Nat.lt_or_ge p.length 16 with hs | hl
  · rw [remainderPacket_of_short hs, padTo_length (wholeElements_length_le (n := 4) (by omega)),
      List.length_append, leftOver_length, List.length_replicate]
  · rw [remainderPacket_of_long hl, padTo_length (wholeElements_length_le (n := 7) (by omega)),
      List.length_drop]
    omega

/-- Both packets begin with the whole elements. -/
theorem remainderPacket_getD_head {p : List Byte} {k : Nat} (hk : k < p.length - p.length % 4) :
    (remainderPacket p).getD k 0#8 = p.getD k 0#8 := by
  have hlen : k < (wholeElements p).length := by rwa [wholeElements_length]
  rcases Nat.lt_or_ge p.length 16 with hs | hl
  · rw [remainderPacket_of_short hs, padTo_getD_head hlen, wholeElements_getD hk]
  · rw [remainderPacket_of_long hl, padTo_getD_head hlen, wholeElements_getD hk]

/-- At most three bytes are left over, and the three places where they are read are all of them. -/
theorem exists_leftOver_getD {p : List Byte} {j : Nat} (hj : j < p.length)
    (hr : p.length - p.length % 4 ≤ j) : ∃ k < 3, (leftOver p).getD k 0#8 = p.getD j 0#8 := by
  have ht : p.length % 4 ≠ 0 := by omega
  have hplace : j = p.length - p.length % 4 ∨ j = p.length - p.length % 4 + p.length % 4 / 2
      ∨ j = p.length - p.length % 4 + p.length % 4 - 1 := by omega
  simp only [leftOver, if_neg ht]
  rcases hplace with rfl | rfl | rfl
  · exact ⟨0, by omega, rfl⟩
  · exact ⟨1, by omega, rfl⟩
  · exact ⟨2, by omega, rfl⟩

/-- Every byte of the remainder reaches the packet. -/
theorem exists_remainderPacket_getD {p : List Byte} (h : p.length ≤ 31) {j : Nat} (hj : j < p.length) :
    ∃ k < 32, (remainderPacket p).getD k 0#8 = p.getD j 0#8 := by
  rcases Nat.lt_or_ge j (p.length - p.length % 4) with hw | hr
  · exact ⟨j, by omega, remainderPacket_getD_head hw⟩
  rcases Nat.lt_or_ge p.length 16 with hs | hl
  · obtain ⟨k, hk, e⟩ := exists_leftOver_getD hj hr
    exact ⟨16 + k, by omega, (remainderPacket_getD_leftOver hs hk).trans e⟩
  · refine ⟨28 + (j - (p.length - 4)), by omega, ?_⟩
    rw [remainderPacket_getD_last hl h]
    congr 1
    omega

/-! ### The UPDATE command (R124, R125) -/

theorem respond_setHash (d : Port) (b : LaneBlock) (l : List Byte) (s : State) :
    respond d (setHash b l s) = { s with lanes := b, buf := l, rsp := some ⟨false, none, d⟩ } := rfl

theorem exec_update_of_short {x : List Byte} {s : State} (hx : x.length ≤ 32)
    (hp : s.phase = .active) (h : (s.buf ++ x).length < 32) :
    exec (.update x) s
      = .next { s with buf := s.buf ++ x, rsp := some ⟨false, none, 0#256⟩ } := by
  rw [exec_update_wf s hx, whenActive_of_active hp, absorb_of_short h, respond_setHash]

theorem exec_update_of_packet {x : List Byte} {s : State} (hx : x.length ≤ 32)
    (hp : s.phase = .active) (h : 32 ≤ (s.buf ++ x).length) :
    exec (.update x) s = .next
      { s with
        lanes := hashRound (loadPacket ((s.buf ++ x).take 32)) s.lanes
        buf := (s.buf ++ x).drop 32
        rsp := some ⟨false, none, 0#256⟩ } := by
  rw [exec_update_wf s hx, whenActive_of_active hp, absorb_of_packet h, respond_setHash]

theorem exec_update_of_not_active {x : List Byte} {s : State} (hx : x.length ≤ 32)
    (hp : s.phase ≠ .active) : exec (.update x) s = .next (s.afterError .seqError) := by
  rw [exec_update_wf s hx, whenActive_of_not_active hp]

/-- A word with the operation code of UPDATE is in its row when SEL and RSV are zero; NB is free. -/
theorem inRow_update {cw : BitVec 16} (hop : cwOp cw = 0x2#4) (hsel : cwSel cw = 0#2)
    (hrsv : cwRsv cw = 0#4) : InRow .update cw :=
  ⟨hrsv, hop, fun h => absurd rfl h, fun _ => hsel⟩

/-! ### The statements -/

/-- Settles O8: the lanes of `v1` after step 1 and of `v0` after step 5 are those that ZIPPER reads; every
other step acts on one lane. -/
theorem roundEqualsItsPerLaneForm : Obligations.RoundEqualsItsPerLaneForm := by
  intro a b w1 m0 w0 m1 z u0 z' i _
  have hw1 : ∀ i, laneOf (add4 b.v1 (add4 b.mul0 a)) i = w1 i := fun i => by
    rw [laneOf_add4, laneOf_add4, ← BitVec.add_assoc]
  have hw0 : ∀ i, laneOf (add4 b.v0 b.mul1) i = w0 i := laneOf_add4 b.v0 b.mul1
  have hz : zipper (add4 b.v1 (add4 b.mul0 a)) = z := congrArg zipper (eq_of_lanes hw1)
  have hu0 : ∀ i, laneOf (hashRound a b).v0 i = u0 i := fun i => by
    rw [hashRound_v0, laneOf_add4, hw0, hz]
  have hz' : zipper (hashRound a b).v0 = z' := congrArg zipper (eq_of_lanes hu0)
  refine ⟨?_, ?_, hu0 i, ?_⟩
  · rw [hashRound_mul0, laneOf_xor4, laneOf_mul32, hw1, low32, high32]
  · rw [hashRound_mul1, laneOf_xor4, laneOf_mul32, hw0, hw1, low32, high32]
  · rw [hashRound_v1, laneOf_add4, hw1, hz']

/-- Settles O9: the head, the gap and the tail of the packet, long or short. -/
theorem remainderPacketHasTheListedBytes : Obligations.RemainderPacketHasTheListedBytes := by
  intro p _ h31 r r4 t
  have hgap {k : Nat} (hk : r4 ≤ k) : (wholeElements p).length ≤ k := by rwa [wholeElements_length]
  refine ⟨remainderPacket_length h31, fun k => remainderPacket_getD_head, fun hl => ⟨fun k hk hk' => ?_,
    fun k _ => remainderPacket_getD_last hl h31 k⟩, fun hs => ⟨fun k hk hk' => ?_,
    fun k => remainderPacket_getD_end hs, remainderPacket_getD_leftOver hs (k := 0) (by omega),
    remainderPacket_getD_leftOver hs (k := 1) (by omega),
    remainderPacket_getD_leftOver hs (k := 2) (by omega)⟩, fun j => exists_remainderPacket_getD h31⟩
  · rw [remainderPacket_of_long hl, padTo_getD_gap (hgap hk) hk']
  · rw [remainderPacket_of_short hs, padTo_getD_gap (hgap hk) hk']

/-- Settles O10, from the lanes of ADD4, BROADCAST32 and ROT32. -/
theorem remainderMixesTheLengthThenRunsOneRound :
    Obligations.RemainderMixesTheLengthThenRunsOneRound := by
  intro p b _ h31
  refine ⟨add4 b.v0 (broadcast32 p.length), rot32 b.v1 p.length, rfl, fun i hi =>
    ⟨?_, laneOf_rot32 b.v1 p.length i⟩⟩
  obtain ⟨hval, -, -⟩ := broadcast32FillsEveryElement p.length i h31 hi
  rw [laneOf_add4, BitVec.toNat_add, hval]

/-- Settles O28: the two cases of the packet consumer behind the phase check, and the words with the
operation code of UPDATE by the row of UPDATE. -/
theorem updateAppendsAndConsumesOnePacket : Obligations.UpdateAppendsAndConsumesOnePacket := by
  refine ⟨fun x s hx hp => ⟨exec_update_of_short hx hp, exec_update_of_packet hx hp⟩,
    fun x s => exec_update_of_not_active, fun c hop => ⟨fun hbad => ?_, fun hsel hrsv hnb => ?_,
    fun hsel hrsv hnb => ?_⟩⟩
  · refine decode_eq_illegalCmd_iff.mpr fun o hrow => ?_
    obtain rfl : o = .update := toBits_injective (hrow.op.symm.trans hop)
    rcases hbad with hsel | hrsv
    · exact hsel (hrow.sel (by decide))
    · exact hrsv hrow.rsv
  · exact decode_eq_badLength_iff.mpr ⟨inRow_update hop hsel hrsv, hnb⟩
  · exact ⟨_, decode_of_inRow (inRow_update hop hsel hrsv) fun _ => hnb,
      payloadOperand_length hnb c.din⟩

/-- Settles O30: nothing is appended, and BUF held no packet before. -/
theorem emptyUpdateChangesNothing : Obligations.EmptyUpdateChangesNothing := by
  refine ⟨fun s hb hp => ?_, fun s => exec_update_of_not_active (by simp)⟩
  rw [exec_update_of_short (by simp) hp (by rw [List.append_nil]; omega), List.append_nil]

end Sys2Proof.Machine

/-! Family 43_finalize.md: FIN_PREP as an iteration, the three digests on the port, and what the FIN
commands share. -/

namespace Sys2Proof.Machine

/-! ### FIN_PREP (R140, R142) -/

theorem permuteUpdates_eq_iterate (k : Nat) (b : LaneBlock) :
    permuteUpdates k b = permuteUpdate^[k] b := by
  induction k generalizing b with
  | zero => rfl
  | succ k ih => rw [Function.iterate_succ_apply, ← ih, permuteUpdates]

/-! ### The digests on the port (R145, R146) -/

/-- The sum of four lanes on the port, as a number that wraps at the lane and not at the port. -/
theorem setWidth_sum_of_four (a b c d : U64) :
    (a + b + c + d).setWidth 256
      = BitVec.ofNat 256 ((a.toNat + b.toNat + c.toNat + d.toNat) % 2 ^ 64) := by
  apply BitVec.eq_of_toNat_eq
  simp [BitVec.toNat_add]

/-- The three parts of a 128-bit value on the port. -/
theorem extract_setWidth_append (hi lo : U64) :
    ((hi ++ lo : BitVec 128).setWidth 256).extractLsb' 0 64 = lo
      ∧ ((hi ++ lo : BitVec 128).setWidth 256).extractLsb' 64 64 = hi
      ∧ ((hi ++ lo : BitVec 128).setWidth 256).extractLsb' 128 128 = 0#128 := by
  refine ⟨?_, ?_, ?_⟩ <;> rw [BitVec.extractLsb'_setWidth_of_le (by decide)]
  · exact BitVec.extractLsb'_append_eq_right
  · exact BitVec.extractLsb'_append_eq_left
  · -- bit `128 + i` lies beyond a value of 128 bits
    ext i hi
    simp

/-! ### What the FIN commands share (R148, R149) -/

/-- A claim about every FIN is three claims. -/
theorem forall_fin {p : Instr → Prop} (h64 : p .fin64) (h128 : p .fin128) (h256 : p .fin256) :
    ∀ f ∈ finCommands, p f := by
  simp [finCommands, h64, h128, h256]

theorem exec_fin_of_not_active {s : State} (hp : s.phase ≠ .active) :
    ∀ f ∈ finCommands, exec f s = .next (s.afterError .seqError) :=
  forall_fin ((exec_fin64_eq s).trans (whenActive_of_not_active hp))
    ((exec_fin128_eq s).trans (whenActive_of_not_active hp))
    ((exec_fin256_eq s).trans (whenActive_of_not_active hp))

/-- A command without operands, whose format fixes NB and SEL, has the word `w` with any DIN and no other
word (R61, R65). -/
theorem word_of_fixed_fields {o : Op} {i : Instr} {w : BitVec 16} (hi : ∀ c, operands o c = i)
    (hw : cwWord o.toBits 0#6 0#2 = w) (hu : o ≠ .update) (hr : o ≠ .rdreg) :
    (∀ din : Port, decode ⟨w, din⟩ = .instr i) ∧ OnlyWord o.toBits w := by
  subst hw
  refine ⟨fun din => ?_, onlyWord_of_fixed_fields hu hr⟩
  rw [decode_cwWord din (fun _ => rfl) (fun _ => rfl) (by decide), hi]

/-! ### The statements -/

/-- Settles O11: the permute-updates are an iteration, and BUF is empty when BUFLEN is 0. -/
theorem finPrepIsHandlerThenIteratedPermuteUpdate :
    Obligations.FinPrepIsHandlerThenIteratedPermuteUpdate := by
  intro k buf b
  have hstep : permuteUpdate = fun c => hashRound (permute c.v0) c := rfl
  rw [finPrep, permuteUpdates_eq_iterate, hstep]
  simp only [ne_eq, List.length_eq_zero_iff, ite_not]

/-- Settles O31: FIN_PREP(4) and the lane-0 sum behind the phase check, and the word of FIN64. -/
theorem fin64ReturnsTheSumOfLaneZero : Obligations.Fin64ReturnsTheSumOfLaneZero := by
  refine ⟨fun s hp => ?_, fun s hp => exec_fin_of_not_active hp _ (by decide),
    word_of_fixed_fields (o := .fin64) (fun _ => rfl) (by decide) (by decide) (by decide)⟩
  refine ⟨finish 4 extract64 s, (exec_fin64_eq s).trans (whenActive_of_active hp), ?_, rfl, rfl, rfl,
    rfl, rfl⟩
  rw [finish_rsp, extract64, setWidth_sum_of_four]

/-- Settles O32: the two sums are the halves of a 128-bit value, and the port is wider. -/
theorem fin128ReturnsTwoLaneSums : Obligations.Fin128ReturnsTwoLaneSums := by
  refine ⟨fun s hp => ?_, fun s hp => exec_fin_of_not_active hp _ (by decide),
    word_of_fixed_fields (o := .fin128) (fun _ => rfl) (by decide) (by decide) (by decide)⟩
  obtain ⟨hlo, hhi, hzero⟩ := extract_setWidth_append _ _
  exact ⟨finish 6 extract128 s, _, (exec_fin128_eq s).trans (whenActive_of_active hp),
    finish_rsp 6 extract128 s, hlo, hhi, hzero, rfl, rfl, rfl, rfl, rfl⟩

/-- Settles O33: the four results of MODRED are the lanes of the vector that DOUT shows. -/
theorem fin256ReturnsTheReducedSums : Obligations.Fin256ReturnsTheReducedSums := by
  refine ⟨fun s hp => ?_, fun s hp => exec_fin_of_not_active hp _ (by decide),
    word_of_fixed_fields (o := .fin256) (fun _ => rfl) (by decide) (by decide) (by decide)⟩
  exact ⟨finish 10 extract256 s, _, (exec_fin256_eq s).trans (whenActive_of_active hp),
    finish_rsp 10 extract256 s, extract_toPort _ 0 (by decide), extract_toPort _ 1 (by decide),
    extract_toPort _ 2 (by decide), extract_toPort _ 3 (by decide), rfl, rfl, rfl, rfl, rfl⟩

/-- Settles O35: a FIN in ACTIVE leaves PHASE at DONE, where the next one is rejected. -/
theorem finOutsideActiveIsSeqError : Obligations.FinOutsideActiveIsSeqError := by
  refine ⟨fun f hf s hp => exec_fin_of_not_active hp f hf, fun f hf g hg s hp => ?_⟩
  obtain ⟨n, extract, hfin⟩ := exec_fin_of_active hf hp
  exact ⟨_, hfin, exec_fin_of_not_active (by simp) g hg⟩

end Sys2Proof.Machine

/-! Family 44_readout.md: STATUS as a number on the port, and the words of RDREG. -/

namespace Sys2Proof.Machine

/-! ### STATUS on the port (R160) -/

/-- Joining two vectors adds them, the upper one in units of the lower one's range. -/
theorem toNat_append_eq_add {v w : Nat} (hi : BitVec v) (lo : BitVec w) :
    (hi ++ lo).toNat = 2 ^ w * hi.toNat + lo.toNat := by
  rw [BitVec.toNat_append, ← Nat.shiftLeft_add_eq_or_of_lt lo.isLt, Nat.shiftLeft_eq, Nat.mul_comm]

/-- The fields of STATUS in their places, as a sum (R29). -/
theorem status_toNat (s : State) :
    (status s).toNat = s.phase.toBits.toNat + 4 * s.err.toNat + 8 * (codeBits s.errCode).toNat
      + 256 * (bufLen s).toNat := by
  simp only [status, toNat_append_eq_add, BitVec.toNat_zero, BitVec.toNat_ofBool]
  omega

/-- BUFLEN counts every byte of a buffer that is not full (R25). -/
theorem bufLen_toNat {s : State} (h : s.buf.length ≤ 31) : (bufLen s).toNat = s.buf.length :=
  Nat.mod_eq_of_lt (by omega)

/-! ### The words of RDREG (R162) -/

theorem decode_rdreg (sel : VecSel) (d : Port) :
    decode ⟨cwWord 0x9#4 0#6 sel.toBits, d⟩ = .instr (.rdreg sel) := by
  obtain ⟨-, -, hs, -⟩ := fields_cwWord 0x9#4 0#6 sel.toBits
  have e := decode_cwWord (o := .rdreg) (nb := 0#6) (sel := sel.toBits) d (fun _ => rfl) (by simp)
    (by decide)
  rwa [operands, Op.toBits, hs, vecSel_ofBits_toBits] at e

/-- A word with the operation code of RDREG that is a command has NB and RSV zero. -/
theorem fields_zero_of_rdreg_code {o : Op} {cw : BitVec 16} (h : InRow o cw) (hop : cwOp cw = 0x9#4) :
    cwNb cw = 0#6 ∧ cwRsv cw = 0#4 := by
  obtain rfl : o = .rdreg := toBits_injective (h.op.symm.trans hop)
  exact ⟨h.nb (by decide), h.rsv⟩

/-! ### The statements -/

/-- Settles O37: STATUS of the state before the command, field by field as a sum, and the word of RDST. -/
theorem rdstReturnsStatus : Obligations.RdstReturnsStatus := by
  refine ⟨fun s hb => ?_,
    word_of_fixed_fields (o := .rdst) (fun _ => rfl) (by decide) (by decide) (by decide)⟩
  have hphase : s.phase.toBits.toNat
      = (match s.phase with | .uninit => 0 | .active => 1 | .done => 2) := by
    cases s.phase <;> rfl
  have herr : s.err.toNat = if s.err then 1 else 0 := by cases s.err <;> rfl
  have hcode : (codeBits s.errCode).toNat
      = (match s.errCode with
         | none => 0 | some .illegalCmd => 1 | some .badLength => 2 | some .seqError => 3) := by
    rcases s.errCode with _ | _ | _ | _ <;> rfl
  rw [exec_rdst_eq, ← BitVec.ofNat_toNat, status_toNat, bufLen_toNat hb, hphase, herr, hcode]
  rfl

/-- Settles O38: the selected vector behind the phase check, which is one slice of the record, and the
words of RDREG. -/
theorem rdregReturnsTheSelectedVector : Obligations.RdregReturnsTheSelectedVector := by
  refine ⟨fun sel s hp => ?_,
    fun sel s hp => (exec_rdreg_eq s sel).trans (whenActive_of_not_active hp),
    fun din => ⟨decode_rdreg .v0 din, decode_rdreg .v1 din, decode_rdreg .mul0 din,
      decode_rdreg .mul1 din⟩, fun c hop h => ?_⟩
  · exact ⟨(exec_rdreg_eq s sel).trans (whenActive_of_active hp), portBytes_toPort _,
      (record_slice s.lanes sel).symm⟩
  · refine decode_eq_illegalCmd_iff.mpr fun o hrow => ?_
    obtain ⟨hnb, hrsv⟩ := fields_zero_of_rdreg_code hrow hop
    exact h.elim (absurd hnb) (absurd hrsv)

end Sys2Proof.Machine

/-! Family 60_exceptions.md: what a raised error leaves, the phase check over all commands, and the order in
which a command word meets the three errors. -/

namespace Sys2Proof.Machine

/-! ### The phase check (R172) -/

/-- `t` is what a command that completes in `s` may leave: a response without error, the error record and
the host's moves as they were. -/
structure Completes (s t : State) : Prop where
  rsp : ∃ dout, t.rsp = some ⟨false, none, dout⟩
  err : t.err = s.err
  errCode : t.errCode = s.errCode
  host : t.host = s.host

theorem completes_finish (n : Nat) (f : LaneBlock → Port) (s : State) : Completes s (finish n f s) :=
  ⟨⟨_, finish_rsp n f s⟩, rfl, rfl, rfl⟩

theorem completes_respond (d : Port) (s : State) : Completes s (respond d s) :=
  ⟨⟨_, respond_rsp s d⟩, rfl, rfl, rfl⟩

theorem completes_absorb (x : List Byte) (s : State) : Completes s (respond 0#256 (absorb x s)) :=
  ⟨⟨_, respond_rsp _ _⟩, absorb_err x s, absorb_errCode x s, absorb_host x s⟩

/-- RESET and RDST complete in every phase. -/
theorem exec_of_not_needsActive {i : Instr} (h : i.needsActive = false) (s : State) :
    ∃ t, exec i s = .next t ∧ Completes s t := by
  cases i with
  | reset key => exact ⟨_, exec_reset_eq s key, ⟨_, rfl⟩, rfl, rfl, rfl⟩
  | rdst => exact ⟨_, exec_rdst_eq s, completes_respond _ s⟩
  | update x | fin64 | fin128 | fin256 | rdreg sel => cases h

/-- A well-formed command of the others is an effect behind the phase check, and the effect completes. -/
theorem exec_of_needsActive {i : Instr} (hwf : i.wellFormed = true) (h : i.needsActive = true)
    (s : State) : ∃ k : State → State, exec i s = whenActive k s ∧ Completes s (k s) := by
  cases i with
  | update x => exact ⟨_, exec_update_wf s (of_decide_eq_true hwf), completes_absorb x s⟩
  | fin64 => exact ⟨_, exec_fin64_eq s, completes_finish _ _ s⟩
  | fin128 => exact ⟨_, exec_fin128_eq s, completes_finish _ _ s⟩
  | fin256 => exact ⟨_, exec_fin256_eq s, completes_finish _ _ s⟩
  | rdreg sel => exact ⟨_, exec_rdreg_eq s sel, completes_respond _ s⟩
  | reset key | rdst => cases h

/-- An admitted command completes. -/
theorem exec_of_admitted {i : Instr} {s : State} (hwf : i.wellFormed = true)
    (h : i.needsActive = false ∨ s.phase = .active) : ∃ t, exec i s = .next t ∧ Completes s t := by
  cases hn : i.needsActive with
  | false => exact exec_of_not_needsActive hn s
  | true =>
    obtain ⟨k, e, hk⟩ := exec_of_needsActive hwf hn s
    have hp : s.phase = .active := h.resolve_left (by simp [hn])
    exact ⟨_, e.trans (whenActive_of_active hp), hk⟩

/-- A command that the phase check turns away is a SeqError. -/
theorem exec_of_not_admitted {i : Instr} {s : State} (hwf : i.wellFormed = true)
    (hn : i.needsActive = true) (hp : s.phase ≠ .active) :
    exec i s = .next (s.afterError .seqError) := by
  obtain ⟨k, e, -⟩ := exec_of_needsActive hwf hn s
  exact e.trans (whenActive_of_not_active hp)

/-! ### The order of the errors (R173) -/

/-- A decoded command is well formed. -/
theorem wellFormed_of_decode {c : Command} {i : Instr} (h : decode c = .instr i) :
    i.wellFormed = true := by
  cases i with
  | update x =>
    obtain ⟨rfl, hnb⟩ := payload_of_decode h
    exact decide_eq_true (by rwa [payloadOperand_length hnb])
  | reset key | fin64 | fin128 | fin256 | rdst | rdreg sel => rfl

/-- The commands that need the hash state, by their operation codes. -/
theorem needsActive_iff_code (i : Instr) :
    i.needsActive = true ↔ i.op.toBits ∈ [0x2#4, 0x4#4, 0x5#4, 0x6#4, 0x9#4] := by
  cases i <;> simp [Instr.needsActive, Instr.op, Op.toBits]

/-- A word of some row with the operation code of UPDATE and 33 bytes or more is a BadLength. -/
theorem decode_eq_badLength_of_long {c : Command} (h : decode c ≠ .illegalCmd)
    (hlong : cwOp c.cw = 0x2#4 ∧ 33 ≤ (cwNb c.cw).toNat) : decode c = .badLength := by
  obtain ⟨hop, hnb⟩ := hlong
  cases hd : decode c with
  | illegalCmd => exact absurd hd h
  | badLength => rfl
  | instr i =>
    obtain ⟨-, hrow, hle⟩ := inRow_of_decode hd
    have := hle (toBits_injective (hrow.op.symm.trans hop))
    omega

/-- Every other word of some row is a command, with the operation code of its row. -/
theorem decode_eq_instr_of_not_long {c : Command} (h : decode c ≠ .illegalCmd)
    (hshort : ¬ (cwOp c.cw = 0x2#4 ∧ 33 ≤ (cwNb c.cw).toNat)) :
    ∃ i, decode c = .instr i ∧ cwOp c.cw = i.op.toBits := by
  cases hd : decode c with
  | illegalCmd => exact absurd hd h
  | badLength =>
    obtain ⟨hrow, hnb⟩ := decode_eq_badLength_iff.mp hd
    exact absurd ⟨hrow.op, hnb⟩ hshort
  | instr i =>
    obtain ⟨-, hrow, -⟩ := inRow_of_decode hd
    exact ⟨i, rfl, hrow.op⟩

section
variable {s : State} {c : Command} {rest : List HostEvent}

theorem step_of_illegalCmd (h : s.host = .command c :: rest) (hd : decode c = .illegalCmd) :
    step s = .next ((setHost rest s).afterError .illegalCmd) := by
  rw [step_command h, answer, hd]
  exact raise_eq _ _

theorem step_of_badLength (h : s.host = .command c :: rest) (hd : decode c = .badLength) :
    step s = .next ((setHost rest s).afterError .badLength) := by
  rw [step_command h, answer, hd]
  exact raise_eq _ _

theorem step_of_instr {i : Instr} (h : s.host = .command c :: rest) (hd : decode c = .instr i) :
    step s = exec i (setHost rest s) := by
  rw [step_command h, answer, hd]

end

/-! ### The statements -/

/-- Settles O41: `afterError` with its test of ERR turned round. -/
theorem raiseRecordsTheFirstCodeAndNothingElse :
    Obligations.RaiseRecordsTheFirstCodeAndNothingElse := by
  intro c s
  rw [raise_eq, State.afterError]
  cases s.err <;> rfl

/-- Settles O42: the phase check is all that stands between a well-formed command and its effect. -/
theorem phaseCheckAdmitsOrRaisesSeqError : Obligations.PhaseCheckAdmitsOrRaisesSeqError := by
  refine fun i s hwf => ⟨fun h => ?_, exec_of_not_admitted hwf⟩
  obtain ⟨t, e, ⟨dout, hrsp⟩, herr, hcode, hhost⟩ := exec_of_admitted hwf h
  exact ⟨t, dout, e, hrsp, herr, hcode, hhost⟩

/-- Settles O43: the decoder reports the first two errors in their order, and the phase check of the
decoded command the third. -/
theorem firstApplicableErrorIsReported : Obligations.FirstApplicableErrorIsReported := by
  intro s c rest h illegal tooLong needs
  have hillegal : decode c = .illegalCmd ↔ illegal := (decoderAnswersByFieldsAndByRows c).2.1
  have hneeds {i : Instr} (hop : cwOp c.cw = i.op.toBits) : i.needsActive = true ↔ needs :=
    (needsActive_iff_code i).trans (by rw [← hop])
  refine ⟨fun hi => step_of_illegalCmd h (hillegal.mpr hi), fun hi hl => ?_, fun hi hl hn hp => ?_,
    fun hi hl ha => ?_⟩
  · exact step_of_badLength h (decode_eq_badLength_of_long (mt hillegal.mp hi) hl)
  · obtain ⟨i, hd, hop⟩ := decode_eq_instr_of_not_long (mt hillegal.mp hi) hl
    exact (step_of_instr h hd).trans
      (exec_of_not_admitted (wellFormed_of_decode hd) ((hneeds hop).mpr hn) hp)
  · obtain ⟨i, hd, hop⟩ := decode_eq_instr_of_not_long (mt hillegal.mp hi) hl
    have hadm : i.needsActive = false ∨ s.phase = .active :=
      ha.imp_left fun hn => Bool.eq_false_iff.mpr (mt (hneeds hop).mp hn)
    obtain ⟨t, e, ⟨dout, hrsp⟩, -⟩ :=
      exec_of_admitted (s := setHost rest s) (wellFormed_of_decode hd) hadm
    exact ⟨t, dout, (step_of_instr h hd).trans e, hrsp⟩

end Sys2Proof.Machine

/-! What is left of the statements: the decoder and the encoder undo each other, the invariant of the state,
what the host cannot observe, the stream of an ACTIVE core, the digests, and MODRED in its other forms. -/

namespace Sys2Proof

/-! ### Encoding and decoding (R61, R63, R67, R69) -/

/-- The word a command is encoded with, and its DIN, read back as the command. -/
theorem decode_encode {i : Instr} (h : i.wellFormed = true) : decode (encode i) = .instr i := by
  cases i with
  | reset key =>
    refine (decode_cwWord key.toPort (fun _ => rfl) (fun _ => rfl) (by decide)).trans ?_
    rw [operands, keyOperand, ofPort_toPort]
  | update x =>
    have hx : x.length ≤ 32 := of_decide_eq_true h
    have hnb : (BitVec.ofNat 6 x.length).toNat = x.length := Nat.mod_eq_of_lt (by omega)
    rw [encode, Op.toBits, decode_update (by omega), payloadOperand, hnb, take_portBytes_portOfBytes hx]
  | fin64 | fin128 | fin256 | rdst =>
    exact decode_cwWord 0#256 (fun _ => rfl) (fun _ => rfl) (by decide)
  | rdreg sel => exact Machine.decode_rdreg sel 0#256

/-- The operands of a legal word are encoded with the fields of that word. -/
theorem encode_operands_cw {o : Op} {c : Command} (h : InRow o c.cw)
    (hl : o = .update → (cwNb c.cw).toNat ≤ 32) : (encode (operands o c)).cw = c.cw := by
  rw [eq_cwWord h.rsv, h.op]
  cases o with
  | update =>
    rw [operands, encode, payloadOperand_length (hl rfl), BitVec.ofNat_toNat, BitVec.setWidth_eq,
      h.sel (by decide)]
  | rdreg => rw [operands, encode, vecSel_toBits_ofBits, h.nb (by decide)]
  | reset | fin64 | fin128 | fin256 | rdst =>
    rw [operands, encode, h.nb (by decide), h.sel (by decide)]

/-- Settles O16, by `decode_encode`. -/
theorem decodeOfEncodeIsTheCommand : Obligations.DecodeOfEncodeIsTheCommand :=
  fun _ => decode_encode

/-- Settles O17: a decoded command is the operands of its word. -/
theorem encodeOfDecodeIsTheCommandWord : Obligations.EncodeOfDecodeIsTheCommandWord := by
  intro c i hd
  obtain ⟨hi, hrow, hle⟩ := inRow_of_decode hd
  have hwf := Machine.wellFormed_of_decode hd
  refine ⟨hwf, ?_, decode_encode hwf⟩
  rw [hi]
  exact encode_operands_cw hrow hle

/-- Settles O14: each word has its fields written out. -/
theorem wordsOfTheOpcodeMapDecode : Obligations.WordsOfTheOpcodeMapDecode := by
  unfold Obligations.WordsOfTheOpcodeMapDecode
  decide

end Sys2Proof

namespace Sys2Proof.Machine

/-! ### One step (R67) -/

/-- A step answers a next state, whatever the host's next move is. -/
theorem exists_step (s : State) : ∃ t, step s = .next t := by
  match h : s.host with
  | [] => exact ⟨_, step_idle h⟩
  | .por :: rest => exact ⟨_, step_por h⟩
  | .command c :: rest =>
    obtain ⟨t, _, e, -⟩ := answer_record c (setHost rest s)
    exact ⟨t, (step_command h).trans e⟩

theorem decode_tableCommand {nbits w : Nat} {i : Instr} (h : decodeTableWord nbits w = some i) :
    decode (tableCommand nbits w) = .instr i := by
  unfold decodeTableWord at h
  split at h
  · rwa [← Option.some.inj h]
  · cases h
  · cases h

/-- Taking the command just presented leaves the state it was presented in. -/
theorem step_withFetchWord {nbits w : Nat} {i : Instr} (h : decodeTableWord nbits w = some i)
    (s : State) : step (s.withFetchWord nbits w) = exec i s :=
  step_of_instr (s := s.withFetchWord nbits w) rfl (decode_tableCommand h)

/-- Settles O24, by the host's next move. -/
theorem noStepStops : Obligations.NoStepStops := exists_step

/-- Settles O22, by the host's next move and the decoder's answer. -/
theorem stepRunsTheDecodedCommand : Obligations.StepRunsTheDecodedCommand :=
  ⟨fun _ _ _ _ => step_of_instr, fun _ _ _ => step_of_illegalCmd, fun _ _ _ => step_of_badLength,
    fun _ => step_idle, fun s _ _ _ h => step_withFetchWord h s⟩

/-! ### Runs -/

theorem runSteps_succ {s t : State} (h : step s = .next t) (n : Nat) :
    runSteps (n + 1) s = runSteps n t := by
  rw [runSteps, h]

theorem runSteps_add {m n : Nat} {s t : State} (h : runSteps m s = .next t) :
    runSteps (m + n) s = runSteps n t := by
  induction m generalizing s with
  | zero =>
    cases h
    rw [Nat.zero_add]
  | succ m ih =>
    obtain ⟨u, hu⟩ := exists_step s
    rw [runSteps_succ hu] at h
    rw [Nat.succ_add, runSteps_succ hu, ih h]

theorem runInstrs_cons {i : Instr} {s t : State} (h : exec i s = .next t) (is : List Instr) :
    runInstrs (i :: is) s = runInstrs is t := by
  rw [runInstrs, h]

/-- The list of commands runs from `s` to `t`, every response on the way without error. -/
structure ErrorFreeRun (is : List Instr) (s t : State) : Prop where
  free : InstrsErrorFree is s
  run : runInstrs is s = .next t

theorem ErrorFreeRun.nil (s : State) : ErrorFreeRun [] s s := ⟨trivial, rfl⟩

theorem ErrorFreeRun.cons {i : Instr} {is : List Instr} {s t u : State} {d : Port}
    (h : exec i s = .next t) (hr : t.rsp = some ⟨false, none, d⟩) (h' : ErrorFreeRun is t u) :
    ErrorFreeRun (i :: is) s u where
  free := ⟨t, _, h, hr, rfl, h'.free⟩
  run := (runInstrs_cons h is).trans h'.run

theorem ErrorFreeRun.append {is js : List Instr} {s t u : State} (h : ErrorFreeRun is s t)
    (h' : ErrorFreeRun js t u) : ErrorFreeRun (is ++ js) s u := by
  obtain ⟨hfree, hrun⟩ := h
  induction is generalizing s with
  | nil =>
    cases hrun
    exact h'
  | cons i is ih =>
    obtain ⟨v, r, hv, hr, he, hfree⟩ := hfree
    rw [runInstrs_cons hv] at hrun
    have hrest := ih hfree hrun
    exact ⟨⟨v, r, hv, hr, he, hrest.free⟩, (runInstrs_cons hv _).trans hrest.run⟩

/-- ERR at the end of a run of presented commands is clear exactly when it was clear at the start and no
response carried an error. -/
theorem runSteps_err_iff (cs : List Command) {rest : List HostEvent} {s : State}
    (h : s.host = cs.map HostEvent.command ++ rest) :
    ∃ t, runSteps cs.length s = .next t
      ∧ (t.err = false ↔ s.err = false ∧ ErrorFree cs.length s) := by
  induction cs generalizing s with
  | nil => exact ⟨s, rfl, by simp [ErrorFree]⟩
  | cons c cs ih =>
    obtain ⟨u, r, ha, hr, hhost, hrec⟩ :=
      answer_record c (setHost (cs.map HostEvent.command ++ rest) s)
    have hstep : step s = .next u := (step_command h).trans ha
    obtain ⟨t, hrun, ht⟩ := ih hhost
    refine ⟨t, (runSteps_succ hstep _).trans hrun, ht.trans ?_⟩
    rw [List.length_cons, errorFree_succ_iff hstep, hr]
    rcases hrec with ⟨he, herr⟩ | ⟨he, herr, -⟩
    · simp [he, herr]
    · simp [he, herr]

/-- Settles O55, by induction on the commands presented. -/
theorem errorFreeRunIffErrStaysClear : Obligations.ErrorFreeRunIffErrStaysClear := by
  intro cs rest s h h0
  obtain ⟨t, hrun, ht⟩ := runSteps_err_iff cs h
  exact ⟨t, hrun, by rw [ht, and_iff_right h0]⟩

/-! ### POR and the invariant (R32, R33) -/

/-- STATUS is zero when PHASE, ERR, ERRCODE and BUFLEN have their values after POR. -/
theorem status_eq_zero {s : State} (hp : s.phase = .uninit) (he : s.err = false)
    (hc : s.errCode = none) (hb : s.buf = []) : status s = 0#32 := by
  rw [status, bufLen, hp, he, hc, hb]
  decide

/-- Settles O47: POR writes the four fields that STATUS shows. -/
theorem porSetsTheControlState : Obligations.PorSetsTheControlState :=
  ⟨fun _ _ h => ⟨_, step_por h, rfl, rfl, rfl, rfl, status_eq_zero rfl rfl rfl rfl⟩,
    rfl, rfl, rfl, rfl, status_eq_zero rfl rfl rfl rfl⟩

/-- A state with no response and the control state of POR has the invariant. -/
theorem inv_of_por_values {s : State} (hb : s.buf = []) (he : s.err = false) (hc : s.errCode = none)
    (hr : s.rsp = none) : s.Inv where
  bufLen_le := by simp [hb]
  errCode_iff := by simp [he, hc]
  buf_empty _ := hb
  rsp_wf := by simp [hr]
  rsp_sticky := by simp [hr]

theorem inv_setHost {s : State} (hs : s.Inv) (rest : List HostEvent) : (setHost rest s).Inv :=
  ⟨hs.bufLen_le, hs.errCode_iff, hs.buf_empty, hs.rsp_wf, hs.rsp_sticky⟩

theorem inv_afterError {s : State} (hs : s.Inv) (c : Cause) : (s.afterError c).Inv where
  bufLen_le := hs.bufLen_le
  errCode_iff := by
    cases he : s.err with
    | false => simp [he]
    | true => simp [he, hs.errCode_iff]
  buf_empty := hs.buf_empty
  rsp_wf := by
    rintro r ⟨⟩
    exact wf_of_error c
  rsp_sticky _ _ _ := rfl

/-- A command that completes keeps the invariant if BUF stays short, and empty outside ACTIVE. -/
theorem inv_of_completes {s t : State} (hs : s.Inv) (h : Completes s t) (hb : t.buf.length ≤ 31)
    (he : t.phase ≠ .active → t.buf = []) : t.Inv := by
  obtain ⟨⟨d, hr⟩, herr, hcode, -⟩ := h
  refine ⟨hb, by rw [hcode, herr, hs.errCode_iff], he, fun r h => ?_, fun r h h1 => ?_⟩
  · cases hr.symm.trans h
    exact wf_of_no_error d
  · cases hr.symm.trans h
    cases h1

theorem inv_of_effect {i : Instr} {s t : State} (hs : s.Inv) (h : Effect i s t) : t.Inv := by
  cases h with
  | error c => exact inv_afterError hs c
  | load key hi =>
    exact inv_of_completes hs ⟨⟨_, rfl⟩, rfl, rfl, rfl⟩ (by simp) fun _ => rfl
  | consume x hi hx hp =>
    have hlen := absorb_buf_length hx hs.bufLen_le
    refine inv_of_completes hs (completes_absorb x s) ?_ fun hne => absurd ?_ hne
    · rw [respond_buf]
      omega
    · rw [respond_phase, absorb_phase, hp]
  | finish n f hi hp => exact inv_of_completes hs (completes_finish n f s) (by simp) fun _ => rfl
  | show_ d hi => exact inv_of_completes hs (completes_respond d s) hs.bufLen_le hs.buf_empty

/-- Settles O48: the values of POR, and no response. -/
theorem resetStateSatisfiesTheInvariant : Obligations.ResetStateSatisfiesTheInvariant :=
  inv_of_por_values rfl rfl rfl rfl

/-- Settles O49, by the kinds of step and the effects of a command. -/
theorem stepKeepsTheInvariant : Obligations.StepKeepsTheInvariant := by
  intro s t hs h
  cases step_case h with
  | idle _ => exact hs
  | por rest _ => exact inv_of_por_values rfl rfl rfl rfl
  | reject c rest e _ => exact inv_afterError (inv_setHost hs rest) e
  | run c rest i t _ _ heff => exact inv_of_effect (inv_setHost hs rest) heff

/-! ### What an error leaves (R174, R175) -/

/-- A response with an error is the mark of a raised error. -/
theorem eq_afterError_of_effect {i : Instr} {s t : State} (h : Effect i s t) {r : Response}
    (hr : t.rsp = some r) (he : r.errf = true) :
    ∃ e, r = ⟨true, some e, 0#256⟩ ∧ t = s.afterError e := by
  cases h with
  | error c =>
    cases hr
    exact ⟨c, rfl, rfl⟩
  | load | consume | finish | show_ =>
    cases hr
    cases he

/-- Settles O44: a word that decoding rejects, or a decoded command whose effect is the error. -/
theorem rejectedCommandLeavesTheHashState : Obligations.RejectedCommandLeavesTheHashState := by
  intro s t c rest r h hstep hr he
  rw [step_command h] at hstep
  rcases answer_cases c (setHost rest s) with ⟨e, ha⟩ | ⟨i, -, ha⟩
  · cases ha.symm.trans hstep
    cases hr
    exact ⟨e, rfl, rfl, rfl⟩
  · obtain ⟨u, hu, heff⟩ := exec_effect i (setHost rest s)
    cases hu.symm.trans (ha.symm.trans hstep)
    obtain ⟨e, rfl, ht⟩ := eq_afterError_of_effect heff hr he
    exact ⟨e, rfl, rfl, ht⟩

/-! ### RESET (R112, R113) -/

theorem xor4_xor4 (a b : Vec4) : xor4 (xor4 a b) b = a :=
  vec4_ext fun i _ => by rw [laneOf_xor4, laneOf_xor4, xor_cancel_right]

/-- Settles O26: what RESET writes depends on the key alone, and RDREG shows only what RESET wrote. -/
theorem resetIsIdempotent : Obligations.ResetIsIdempotent := by
  have hread (key : Vec4) (s : State) (sel : VecSel) :=
    (exec_rdreg_eq (respond 0#256 (setPhase .active (setHash (resetLanes key) [] s))) sel).trans
      (whenActive_of_active rfl)
  exact fun key s t => ⟨_, _, exec_reset_eq s key, exec_reset_eq t key, rfl, rfl, rfl, rfl,
    fun sel => ⟨_, _, hread key s sel, hread key t sel, rfl⟩⟩

/-- Settles O27: XOR with MUL0 undoes what RESET did to the key in `v0`. -/
theorem resetMapIsInjective : Obligations.ResetMapIsInjective := by
  intro k k' s t t' h h'
  cases (exec_reset_eq s k).symm.trans h
  cases (exec_reset_eq s k').symm.trans h'
  have hkey (key : Vec4) : xor4 (resetLanes key).v0 constMul0 = key := xor4_xor4 key constMul0
  refine ⟨hkey k, fun hv0 _ => ?_, rfl, rfl⟩
  have hv0 : (resetLanes k).v0 = (resetLanes k').v0 := hv0
  rw [← hkey k, hv0, hkey]

/-! ### Read-outs (R161) -/

theorem raise_respond (c : Cause) (d : Port) (s : State) : raise c (respond d s) = raise c s := rfl

theorem absorb_respond (x : List Byte) (d : Port) (s : State) :
    absorb x (respond d s) = respond d (absorb x s) := by
  rcases Nat.lt_or_ge (s.buf ++ x).length 32 with h | h
  · rw [absorb_of_short h, absorb_of_short (s := respond d s) h]
    rfl
  · rw [absorb_of_packet h, absorb_of_packet (s := respond d s) h]
    rfl

theorem finish_respond (n : Nat) (f : LaneBlock → Port) (d : Port) (s : State) :
    finish n f (respond d s) = finish n f s := rfl

theorem whenActive_respond {k : State → State} {d : Port} {s : State}
    (hk : k (respond d s) = k s) : whenActive k (respond d s) = whenActive k s := by
  rw [whenActive, whenActive, hk, raise_respond, respond_phase]

/-- No command reads the response that stands. -/
theorem exec_respond (i : Instr) (d : Port) (s : State) : exec i (respond d s) = exec i s := by
  cases i with
  | reset key => rfl
  | update x =>
    rw [exec_update_eq, exec_update_eq, raise_respond, whenActive_respond]
    rw [absorb_respond]
    rfl
  | fin64 => exact whenActive_respond (finish_respond 4 extract64 d s)
  | fin128 => exact whenActive_respond (finish_respond 6 extract128 d s)
  | fin256 => exact whenActive_respond (finish_respond 10 extract256 d s)
  | rdst => rfl
  | rdreg sel =>
    rw [exec_rdreg_eq, exec_rdreg_eq, whenActive_respond]
    rfl

/-- An admitted read-out changes the response and nothing else. -/
theorem exec_readout {ro : Instr} {s : State}
    (h : ro = .rdst ∨ (∃ sel : VecSel, ro = .rdreg sel) ∧ s.phase = .active) :
    ∃ d, exec ro s = .next (respond d s) := by
  rcases h with rfl | ⟨⟨sel, rfl⟩, hp⟩
  · exact ⟨_, exec_rdst_eq s⟩
  · exact ⟨_, (exec_rdreg_eq s sel).trans (whenActive_of_active hp)⟩

/-- Settles O40: a read-out leaves a response, which no command reads. -/
theorem readoutsHaveNoSideEffect : Obligations.ReadoutsHaveNoSideEffect := by
  intro ro s t h ht
  obtain ⟨d, hd⟩ := exec_readout h
  cases hd.symm.trans ht
  exact ⟨(exec_respond ro d s).trans hd, fun i => exec_respond i d s⟩

/-! ### BUFLEN (R25) -/

/-- Settles O29, from the length that the packet consumer leaves. -/
theorem updateAddsToBufLenModulo32 : Obligations.UpdateAddsToBufLenModulo32 := by
  intro x s hx hb hp
  have hlen : (respond 0#256 (absorb x s)).buf.length = (s.buf.length + x.length) % 32 :=
    absorb_buf_length hx hb
  have hle : (respond 0#256 (absorb x s)).buf.length ≤ 31 := by omega
  refine ⟨_, (exec_update_wf s hx).trans (whenActive_of_active hp), ?_, ?_⟩
  · rw [bufLen_toNat hle, bufLen_toNat hb, hlen]
  · rw [bufLen_toNat hle]

/-! ### MODRED (R143, R144) -/

/-- Shifting a joined pair left carries the top bits of the low lane into the high one. -/
theorem append_shiftLeft (hi lo : U64) {k : Nat} (h : k ≤ 64) :
    (hi ++ lo : BitVec 128) <<< k = (hi <<< k ||| lo >>> (64 - k)) ++ lo <<< k := by
  refine BitVec.eq_of_getLsbD_eq fun i hi128 => ?_
  simp only [BitVec.getLsbD_shiftLeft, BitVec.getLsbD_append, BitVec.getLsbD_or,
    BitVec.getLsbD_ushiftRight]
  rcases Nat.lt_or_ge i 64 with hlow | hhigh
  · simp [hlow, hi128, show i - k < 64 by omega]
  · rcases Nat.lt_or_ge i (64 + k) with hcarry | hup
    · simp [hi128, Nat.not_lt.mpr hhigh, show i - k < 64 by omega, show ¬ i < k by omega,
        show i - 64 < k by omega, show 64 - k + (i - 64) = i - k by omega]
    · simp [hi128, Nat.not_lt.mpr hhigh, show ¬ i - k < 64 by omega, show ¬ i < k by omega,
        show ¬ i - 64 < k by omega, show i - 64 < 64 by omega,
        show i - k - 64 = i - 64 - k by omega,
        BitVec.getLsbD_of_ge lo (64 - k + (i - 64)) (by omega)]

/-- Settles O12: each of the two shifts acts on the pair of lanes. -/
theorem modredReducesThePolynomial : Obligations.ModredReducesThePolynomial := by
  intro a3raw a2 a1 a0 h lo
  rw [append_shiftLeft _ _ (k := 1) (by decide), append_shiftLeft _ _ (k := 2) (by decide),
    BitVec.xor_append, BitVec.xor_append]
  rfl

/-- A low lane of the vector form: MASK3 keeps every bit of it and no bit is carried in. -/
theorem modredVec_low_lane (x y : U64) :
    y ^^^ ((x &&& 0xffffffffffffffff#64) <<< 1 ||| 0#64 >>> 63)
        ^^^ ((x &&& 0xffffffffffffffff#64) <<< 2 ||| 0#64 >>> 62)
      = y ^^^ x <<< 1 ^^^ x <<< 2 := by
  have hmask : x &&& 0xffffffffffffffff#64 = x := BitVec.and_allOnes
  rw [hmask, BitVec.zero_ushiftRight, BitVec.zero_ushiftRight, BitVec.or_zero, BitVec.or_zero]

/-- Settles O13, lane by lane; the high lanes are MODRED as it stands. -/
theorem vectorModredEqualsTwoHalves : Obligations.VectorModredEqualsTwoHalves := fun a01 a23 =>
  vec4_ext (forall_lane (modredVec_low_lane a23.l0 a01.l0) rfl (modredVec_low_lane a23.l2 a01.l2) rfl)

/-! ### The digests as MemWrites (R43) -/

/-- The 8 bytes that MemWrite stores for a lane are the bytes of the lane. -/
theorem leBytes_lane (x : U64) :
    leBytes 8 x.toNat = (List.range 8).map fun k => x.extractLsb' (8 * k) 8 := by
  refine List.ext_getElem (by simp) fun k h1 h2 => ?_
  have hk : k < 8 := by simpa using h1
  rw [← List.getD_eq_getElem _ 0#8 h1, leBytes_getD hk, ← extract_ofNat (w := 64) (by omega),
    BitVec.ofNat_toNat, BitVec.setWidth_eq, List.getElem_map, List.getElem_range]

section
variable (a b c d : U64)

/-- A stored vector is its four lanes, stored one after another. -/
theorem storeVec_eq_append :
    storeVec ⟨a, b, c, d⟩ = leBytes 8 a.toNat ++ (leBytes 8 b.toNat
      ++ (leBytes 8 c.toNat ++ leBytes 8 d.toNat)) := by
  rw [leBytes_lane, leBytes_lane, leBytes_lane, leBytes_lane]
  rfl

/-- MemWrite replaces the bytes that stand between a head and a rest. -/
theorem memWrite_append {i n : Nat} (v : Nat) {p q r : List Byte} (hp : p.length = i)
    (hq : q.length = n) : memWrite (p ++ (q ++ r)) i n v = p ++ (leBytes n v ++ r) := by
  subst hp hq
  rw [memWrite, List.take_left, List.append_assoc, ← List.append_assoc p q r, ← List.length_append,
    List.drop_left]

/-- MemWrite of 8 bytes at the offset of a lane stores that lane. -/
theorem memWrite_storeVec (x : U64) :
    memWrite (storeVec ⟨a, b, c, d⟩) 0 8 x.toNat = storeVec ⟨x, b, c, d⟩
      ∧ memWrite (storeVec ⟨a, b, c, d⟩) 8 8 x.toNat = storeVec ⟨a, x, c, d⟩
      ∧ memWrite (storeVec ⟨a, b, c, d⟩) 16 8 x.toNat = storeVec ⟨a, b, x, d⟩
      ∧ memWrite (storeVec ⟨a, b, c, d⟩) 24 8 x.toNat = storeVec ⟨a, b, c, x⟩ := by
  have hlen (y : U64) : (leBytes 8 y.toNat).length = 8 := leBytes_length 8 _
  have hlen2 : (leBytes 8 a.toNat ++ leBytes 8 b.toNat).length = 16 := by simp
  have hlen3 : (leBytes 8 a.toNat ++ (leBytes 8 b.toNat ++ leBytes 8 c.toNat)).length = 24 := by simp
  have h2 := memWrite_append x.toNat (r := leBytes 8 d.toNat) hlen2 (hlen c)
  have h3 := memWrite_append x.toNat (r := []) hlen3 (hlen d)
  simp only [List.append_assoc, List.append_nil] at h2 h3
  simp only [storeVec_eq_append]
  exact ⟨memWrite_append _ (p := []) rfl (hlen a), memWrite_append _ (hlen a) (hlen b), h2, h3⟩

theorem replicate_zero_eq_storeVec :
    List.replicate 32 0#8 = storeVec ⟨0#64, 0#64, 0#64, 0#64⟩ := by
  decide

/-- A lane on the port, and zeros above it. -/
theorem setWidth_lane : a.setWidth 256 = Vec4.toPort ⟨a, 0#64, 0#64, 0#64⟩ := by
  apply BitVec.eq_of_toNat_eq
  have := a.isLt
  simp only [Vec4.toPort, toNat_append_eq_add, BitVec.toNat_setWidth, BitVec.toNat_zero]
  omega

/-- Two lanes on the port, and zeros above them. -/
theorem setWidth_two_lanes :
    (b ++ a : BitVec 128).setWidth 256 = Vec4.toPort ⟨a, b, 0#64, 0#64⟩ := by
  apply BitVec.eq_of_toNat_eq
  have := a.isLt
  have := b.isLt
  simp only [Vec4.toPort, toNat_append_eq_add, BitVec.toNat_setWidth, BitVec.toNat_zero]
  omega

end

/-- Settles O34: each digest is a vector on the port, whose lanes the MemWrites store one by one. -/
theorem digestsAreMemWritesOnZeroDout : Obligations.DigestsAreMemWritesOnZeroDout := by
  intro b
  simp only [replicate_zero_eq_storeVec, memWrite_storeVec]
  refine ⟨?_, ?_, ?_⟩
  · rw [extract64, setWidth_lane, portBytes_toPort]
  · rw [extract128, setWidth_two_lanes, portBytes_toPort]
  · rw [extract256, portBytes_toPort, ← vectorModredEqualsTwoHalves]

/-! ### What the host cannot observe (R14, R148, R191) -/

/-- Two outcomes that both go on, to states that the host cannot tell apart. -/
def AgreeView (o o' : Host.Outcome State Fault Refusal) : Prop :=
  ∃ s t : State, o = .next s ∧ o' = .next t ∧ s.SameView t

section
variable {s t : State}

theorem sameView_setHost (h : s.SameView t) (rest : List HostEvent) :
    (setHost rest s).SameView (setHost rest t) :=
  ⟨h.phase, h.err, h.errCode, h.rsp, rfl, h.bufLen, h.hash⟩

theorem sameView_respond (h : s.SameView t) (d : Port) : (respond d s).SameView (respond d t) :=
  ⟨h.phase, h.err, h.errCode, rfl, h.host, h.bufLen, h.hash⟩

theorem sameView_por (h : s.SameView t) : (por s).SameView (por t) :=
  ⟨rfl, rfl, rfl, rfl, h.host, rfl, nofun⟩

theorem sameView_setHash (h : s.SameView t) (b : LaneBlock) (l : List Byte) :
    (setHash b l s).SameView (setHash b l t) :=
  ⟨h.phase, h.err, h.errCode, h.rsp, h.host, rfl, fun _ => ⟨rfl, rfl⟩⟩

/-- A RESET loads the same hash state, whatever was there. -/
theorem sameView_load (h : s.SameView t) (b : LaneBlock) (l : List Byte) :
    (setPhase .active (setHash b l s)).SameView (setPhase .active (setHash b l t)) :=
  ⟨rfl, h.err, h.errCode, h.rsp, h.host, rfl, fun _ => ⟨rfl, rfl⟩⟩

theorem sameView_afterError (h : s.SameView t) (c : Cause) :
    (s.afterError c).SameView (t.afterError c) :=
  ⟨h.phase, rfl, by simp only [afterError_errCode, h.err, h.errCode], rfl, h.host, h.bufLen, h.hash⟩

/-- UPDATE in ACTIVE reads the lane registers and BUF, on which the two states agree. -/
theorem sameView_absorb (h : s.SameView t) (hp : s.phase = .active) (x : List Byte) :
    (absorb x s).SameView (absorb x t) := by
  obtain ⟨hl, hb⟩ := h.hash hp
  rcases Nat.lt_or_ge (s.buf ++ x).length 32 with hlen | hlen
  · rw [absorb_of_short hlen, absorb_of_short (hb ▸ hlen), hl, hb]
    exact sameView_setHash h _ _
  · rw [absorb_of_packet hlen, absorb_of_packet (hb ▸ hlen), hl, hb]
    exact sameView_setHash h _ _

/-- So does a FIN, and after it the hash state counts no more. -/
theorem sameView_finish (h : s.SameView t) (hp : s.phase = .active) (n : Nat)
    (f : LaneBlock → Port) : (finish n f s).SameView (finish n f t) := by
  obtain ⟨hl, hb⟩ := h.hash hp
  exact ⟨rfl, h.err, h.errCode, by rw [finish_rsp, finish_rsp, hl, hb], h.host, rfl, nofun⟩

theorem status_eq_of_sameView (h : s.SameView t) : status s = status t := by
  rw [status, status, bufLen, bufLen, h.bufLen, h.errCode, h.err, h.phase]

theorem agreeView_raise (h : s.SameView t) (c : Cause) : AgreeView (raise c s) (raise c t) :=
  ⟨_, _, raise_eq c s, raise_eq c t, sameView_afterError h c⟩

/-- The phase check answers alike, and lets a command at the hash state in ACTIVE only. -/
theorem agreeView_whenActive (h : s.SameView t) {k : State → State}
    (hk : s.phase = .active → (k s).SameView (k t)) :
    AgreeView (whenActive k s) (whenActive k t) := by
  by_cases hp : s.phase = .active
  · exact ⟨_, _, whenActive_of_active hp, whenActive_of_active (h.phase ▸ hp), hk hp⟩
  · exact ⟨_, _, whenActive_of_not_active hp, whenActive_of_not_active (h.phase ▸ hp),
      sameView_afterError h _⟩

theorem agreeView_exec (h : s.SameView t) (i : Instr) : AgreeView (exec i s) (exec i t) := by
  cases i with
  | reset key =>
    exact ⟨_, _, exec_reset_eq s key, exec_reset_eq t key, sameView_respond (sameView_load h _ _) _⟩
  | update x =>
    rw [exec_update_eq, exec_update_eq]
    split
    · exact agreeView_raise h _
    · exact agreeView_whenActive h fun hp => sameView_respond (sameView_absorb h hp x) _
  | fin64 => exact agreeView_whenActive h fun hp => sameView_finish h hp 4 extract64
  | fin128 => exact agreeView_whenActive h fun hp => sameView_finish h hp 6 extract128
  | fin256 => exact agreeView_whenActive h fun hp => sameView_finish h hp 10 extract256
  | rdst =>
    rw [exec_rdst_eq, exec_rdst_eq, status_eq_of_sameView h]
    exact ⟨_, _, rfl, rfl, sameView_respond h _⟩
  | rdreg sel =>
    rw [exec_rdreg_eq, exec_rdreg_eq]
    refine agreeView_whenActive h fun hp => ?_
    obtain ⟨hl, -⟩ := h.hash hp
    rw [hl]
    exact sameView_respond h _

theorem agreeView_answer (h : s.SameView t) (c : Command) : AgreeView (answer c s) (answer c t) := by
  unfold answer
  cases decode c with
  | illegalCmd => exact agreeView_raise h _
  | badLength => exact agreeView_raise h _
  | instr i => exact agreeView_exec h i

theorem agreeView_step (h : s.SameView t) : AgreeView (step s) (step t) := by
  match hs : s.host with
  | [] => exact ⟨_, _, step_idle hs, step_idle (h.host ▸ hs), h⟩
  | .por :: rest =>
    exact ⟨_, _, step_por hs, step_por (h.host ▸ hs), sameView_por (sameView_setHost h rest)⟩
  | .command c :: rest =>
    rw [step_command hs, step_command (h.host ▸ hs)]
    exact agreeView_answer (sameView_setHost h rest) c

end

/-- Settles O50, by induction on the number of steps. -/
theorem unspecifiedContentsAreNeverObserved : Obligations.UnspecifiedContentsAreNeverObserved := by
  intro n
  induction n with
  | zero => exact fun s t h => ⟨s, t, rfl, rfl, h⟩
  | succ n ih =>
    intro s t h
    obtain ⟨u, v, hu, hv, huv⟩ := agreeView_step h
    rw [runSteps_succ hu, runSteps_succ hv]
    exact ih u v huv

/-! ### The stream of an ACTIVE core (R34, R19) -/

/-- `S_q` of R19: the lane registers when all complete packets of `m` have been mixed into `b`. -/
def streamLanes (b : LaneBlock) (m : List Byte) : LaneBlock := hashPackets b m (m.length / 32)

/-- What is left of `m` after its complete packets. -/
def streamTail (m : List Byte) : List Byte := m.drop (32 * (m.length / 32))

theorem streamTail_length (m : List Byte) : (streamTail m).length = m.length % 32 := by
  rw [streamTail, List.length_drop]
  omega

/-- The packets of a message do not depend on the bytes after them. -/
theorem hashPackets_append (b : LaneBlock) {m : List Byte} (x : List Byte) {j : Nat}
    (h : 32 * j ≤ m.length) : hashPackets b (m ++ x) j = hashPackets b m j := by
  induction j with
  | zero => rfl
  | succ j ih =>
    rw [hashPackets, hashPackets, ih (by omega), List.drop_append_of_le_length (by omega),
      List.take_append_of_le_length (by rw [List.length_drop]; omega)]

/-- The core is ACTIVE and holds the mixing of `m`, started from `b`. -/
structure InStream (b : LaneBlock) (m : List Byte) (s : State) : Prop where
  phase : s.phase = .active
  lanes : s.lanes = streamLanes b m
  buf : s.buf = streamTail m

section
variable {b : LaneBlock} {m : List Byte} {s : State}

theorem inStream_respond (h : InStream b m s) (d : Port) : InStream b m (respond d s) :=
  ⟨h.phase, h.lanes, h.buf⟩

theorem inStream_afterError (h : InStream b m s) (c : Cause) : InStream b m (s.afterError c) :=
  ⟨h.phase, h.lanes, h.buf⟩

theorem inStream_setHost (h : InStream b m s) (rest : List HostEvent) :
    InStream b m (setHost rest s) :=
  ⟨h.phase, h.lanes, h.buf⟩

theorem inStream_load (key : Vec4) (s : State) :
    InStream (resetLanes key) [] (setPhase .active (setHash (resetLanes key) [] s)) :=
  ⟨rfl, rfl, rfl⟩

/-- Any ACTIVE state is a stream that starts with the bytes in BUF. -/
theorem inStream_of_active (hp : s.phase = .active) (hb : s.buf.length ≤ 31) :
    InStream s.lanes s.buf s := by
  have hq : s.buf.length / 32 = 0 := Nat.div_eq_of_lt (by omega)
  exact ⟨hp, by rw [streamLanes, hq, hashPackets], by rw [streamTail, hq, Nat.mul_zero, List.drop_zero]⟩

theorem InStream.bufLen_toNat (h : InStream b m s) : (bufLen s).toNat = m.length % 32 := by
  have hlen : s.buf.length = m.length % 32 := by rw [h.buf, streamTail_length]
  rw [Machine.bufLen_toNat (by omega), hlen]

/-- The bytes in BUF and the new ones follow the complete packets. -/
theorem InStream.buf_append (h : InStream b m s) (x : List Byte) :
    s.buf ++ x = (m ++ x).drop (32 * (m.length / 32)) := by
  rw [h.buf, streamTail, List.drop_append_of_le_length (by omega)]

/-- The packet consumer continues the stream: it mixes one packet more exactly when the message has one. -/
theorem absorb_of_inStream (h : InStream b m s) {x : List Byte} (hx : x.length ≤ 32) :
    absorb x s = setHash (streamLanes b (m ++ x)) (streamTail (m ++ x)) s := by
  have hlen : (s.buf ++ x).length = m.length % 32 + x.length := by
    rw [List.length_append, h.buf, streamTail_length]
  have hmix : hashPackets b (m ++ x) (m.length / 32) = s.lanes := by
    rw [hashPackets_append b x (by omega), h.lanes, streamLanes]
  rw [streamLanes, streamTail, List.length_append]
  rcases Nat.lt_or_ge (s.buf ++ x).length 32 with hshort | hpacket
  · have hq : (m.length + x.length) / 32 = m.length / 32 := by omega
    rw [absorb_of_short hshort, hq, hmix, h.buf_append]
  · have hq : (m.length + x.length) / 32 = m.length / 32 + 1 := by omega
    rw [absorb_of_packet hpacket, hq, hashPackets, hmix, Nat.mul_succ, ← List.drop_drop, h.buf_append]

theorem inStream_absorb (h : InStream b m s) {x : List Byte} (hx : x.length ≤ 32) :
    InStream b (m ++ x) (absorb x s) := by
  rw [absorb_of_inStream h hx]
  exact ⟨h.phase, rfl, rfl⟩

theorem exec_update_of_inStream (h : InStream b m s) {x : List Byte} (hx : x.length ≤ 32) :
    exec (.update x) s = .next (respond 0#256 (absorb x s)) := by
  rw [exec_update_wf s hx, whenActive_of_active h.phase]

/-- The answer to a word that neither starts nor ends a message continues the stream by its payload. -/
theorem answer_of_keepsStream {c : Command} (hc : keepsStream c = true) (h : InStream b m s) :
    ∃ t, answer c s = .next t ∧ InStream b (m ++ streamPayload c) t ∧ t.host = s.host := by
  unfold keepsStream at hc
  unfold answer streamPayload
  cases hd : decode c with
  | illegalCmd =>
    rw [List.append_nil]
    exact ⟨_, raise_eq _ s, inStream_afterError h _, rfl⟩
  | badLength =>
    rw [List.append_nil]
    exact ⟨_, raise_eq _ s, inStream_afterError h _, rfl⟩
  | instr i =>
    rw [hd] at hc
    cases i with
    | reset | fin64 | fin128 | fin256 => cases hc
    | update x =>
      have hx : x.length ≤ 32 := of_decide_eq_true (wellFormed_of_decode hd)
      exact ⟨_, exec_update_of_inStream h hx, inStream_respond (inStream_absorb h hx) _,
        absorb_host x s⟩
    | rdst =>
      rw [List.append_nil]
      exact ⟨_, exec_rdst_eq s, inStream_respond h _, rfl⟩
    | rdreg sel =>
      rw [List.append_nil]
      exact ⟨_, (exec_rdreg_eq s sel).trans (whenActive_of_active h.phase), inStream_respond h _, rfl⟩

/-- The steps on such words continue the stream by all their payloads. -/
theorem runSteps_of_keepsStream (cs : List Command) (hcs : ∀ c ∈ cs, keepsStream c = true)
    {rest : List HostEvent} (h : InStream b m s) (hh : s.host = cs.map HostEvent.command ++ rest) :
    ∃ t, runSteps cs.length s = .next t ∧ InStream b (m ++ cs.flatMap streamPayload) t
      ∧ t.host = rest := by
  induction cs generalizing m s with
  | nil =>
    rw [List.flatMap_nil, List.append_nil]
    exact ⟨s, rfl, h, hh⟩
  | cons c cs ih =>
    obtain ⟨hc, hcs⟩ := List.forall_mem_cons.mp hcs
    obtain ⟨u, ha, hu, hhost⟩ := answer_of_keepsStream hc (inStream_setHost h _)
    obtain ⟨t, hrun, ht, hrest⟩ := ih hcs hu hhost
    rw [List.flatMap_cons, ← List.append_assoc]
    exact ⟨t, (runSteps_succ ((step_command hh).trans ha) _).trans hrun, ht, hrest⟩

end

/-- A RESET and then such words: the stream of the key and the payloads. -/
theorem runSteps_reset_stream {s : State} {key : Vec4} {c0 : Command} {cs : List Command}
    {rest : List HostEvent} (hh : s.host = .command c0 :: (cs.map HostEvent.command ++ rest))
    (h0 : decode c0 = .instr (.reset key)) (hcs : ∀ c ∈ cs, keepsStream c = true) :
    ∃ t, runSteps (cs.length + 1) s = .next t
      ∧ InStream (resetLanes key) (cs.flatMap streamPayload) t ∧ t.host = rest := by
  have hreset := (step_of_instr hh h0).trans (exec_reset_eq _ key)
  rw [runSteps_succ hreset]
  exact runSteps_of_keepsStream cs hcs (inStream_respond (inStream_load key _) _) rfl

/-- Settles O51: after the RESET the stream is empty, and every command continues it. -/
theorem activeStateIsTheMixingOfTheMessage : Obligations.ActiveStateIsTheMixingOfTheMessage := by
  intro s key c0 cs rest hh h0 hcs m q
  obtain ⟨t, hrun, ht, hrest⟩ := runSteps_reset_stream hh h0 hcs
  exact ⟨t, hrun, ht.phase, ht.lanes, ht.buf, ht.bufLen_toNat, hrest⟩

/-! ### The digest (R19, R142, R193) -/

/-- FIN_PREP at the end of a stream is the permute-updates of the whole message. -/
theorem finPrep_of_inStream {key : Vec4} {m : List Byte} {s : State}
    (h : InStream (resetLanes key) m s) (k : Nat) :
    finPrep k s.buf s.lanes = permuteUpdates k (hashMessage key m) := by
  rw [finPrep, h.buf, h.lanes, streamTail_length]
  rfl

/-- The FIN commands, each with the function of R19 that it returns. -/
def digests : List (Instr × (Vec4 → List Byte → Port)) :=
  [(.fin64, digest64), (.fin128, digest128), (.fin256, digest256)]

/-- A FIN command is FIN_PREP and an extraction behind the phase check, and its digest is that extraction
from the mixed message. -/
theorem exists_extract_of_mem_digests {f : Instr} {digest : Vec4 → List Byte → Port}
    (hf : (f, digest) ∈ digests) :
    ∃ (n : Nat) (extract : LaneBlock → Port),
      (∀ s, exec f s = whenActive (finish n extract) s)
      ∧ ∀ key m, digest key m = extract (permuteUpdates n (hashMessage key m)) := by
  simp only [digests, List.mem_cons, Prod.mk.injEq, List.not_mem_nil, or_false] at hf
  rcases hf with ⟨rfl, rfl⟩ | ⟨rfl, rfl⟩ | ⟨rfl, rfl⟩
  · exact ⟨4, extract64, exec_fin64_eq, fun _ _ => rfl⟩
  · exact ⟨6, extract128, exec_fin128_eq, fun _ _ => rfl⟩
  · exact ⟨10, extract256, exec_fin256_eq, fun _ _ => rfl⟩

/-- `t` is what a FIN that answers `d` leaves in `s`. -/
structure Digested (d : Port) (s t : State) : Prop where
  rsp : t.rsp = some ⟨false, none, d⟩
  phase : t.phase = .done
  buf : t.buf = []
  host : t.host = s.host

/-- A FIN at the end of a stream answers the digest of the message. -/
theorem exec_fin_of_inStream {f : Instr} {digest : Vec4 → List Byte → Port}
    (hf : (f, digest) ∈ digests) {key : Vec4} {m : List Byte} {s : State}
    (h : InStream (resetLanes key) m s) :
    ∃ t, exec f s = .next t ∧ Digested (digest key m) s t := by
  obtain ⟨n, extract, hexec, hdigest⟩ := exists_extract_of_mem_digests hf
  refine ⟨_, (hexec s).trans (whenActive_of_active h.phase), ?_, rfl, rfl, rfl⟩
  rw [finish_rsp, finPrep_of_inStream h, hdigest]

/-- Settles O52: the stream of the message, and the FIN at its end. The premise of R176 is not needed for
it: a rejected word leaves the stream as it was, and the FIN finds the core ACTIVE. -/
theorem digestIsTheHashOfKeyAndMessage : Obligations.DigestIsTheHashOfKeyAndMessage := by
  intro s key c0 cf cs rest f digest hh h0 hcs hcf _ hf
  obtain ⟨t, hrun, ht, hhost⟩ := runSteps_reset_stream hh h0 hcs
  obtain ⟨u, hu, hdig⟩ := exec_fin_of_inStream hf (inStream_setHost ht rest)
  refine ⟨u, ?_, hdig.rsp, hdig.phase, by rw [bufLen, hdig.buf]; rfl, hdig.host⟩
  rw [runSteps_add (n := 1) hrun, runSteps_succ ((step_of_instr hhost hcf).trans hu), runSteps]

/-! ### Runs of UPDATE (R126) and the one-shot pseudo-instructions (R71) -/

/-- The state without its response. -/
def clearRsp (s : State) : State := { s with rsp := none }

/-- UPDATEs complete, continue the stream by all their payloads, and write nothing but the hash state and
the response. -/
theorem runInstrs_updates (xs : List (List Byte)) (hxs : ∀ x ∈ xs, x.length ≤ 32) {b : LaneBlock}
    {m : List Byte} {s : State} (h : InStream b m s) :
    ∃ t, ErrorFreeRun (xs.map Instr.update) s t ∧ InStream b (m ++ xs.flatten) t
      ∧ clearRsp t
        = clearRsp (setHash (streamLanes b (m ++ xs.flatten)) (streamTail (m ++ xs.flatten)) s) := by
  induction xs generalizing m s with
  | nil =>
    rw [List.flatten_nil, List.append_nil, ← h.lanes, ← h.buf]
    exact ⟨s, .nil s, h, rfl⟩
  | cons x xs ih =>
    obtain ⟨hx, hxs⟩ := List.forall_mem_cons.mp hxs
    obtain ⟨t, hrun, ht, heq⟩ := ih hxs (inStream_respond (inStream_absorb h hx) 0#256)
    rw [List.flatten_cons, ← List.append_assoc]
    refine ⟨t, .cons (exec_update_of_inStream h hx) (respond_rsp _ _) hrun, ht, heq.trans ?_⟩
    rw [absorb_of_inStream h hx]
    rfl

/-- Settles O53: both runs continue the stream that BUF begins by the same bytes. -/
theorem updateSplitsDoNotMatter : Obligations.UpdateSplitsDoNotMatter := by
  intro s xs ys hp hb hxs hys hflat
  have hs := inStream_of_active hp hb
  obtain ⟨t, ⟨-, hrun⟩, ht, htc⟩ := runInstrs_updates xs hxs hs
  obtain ⟨u, ⟨-, hrun'⟩, -, huc⟩ := runInstrs_updates ys hys hs
  refine ⟨t, u, hrun, hrun', ?_, ?_⟩
  · rw [← hflat] at huc
    exact htc.trans huc.symm
  · rw [ht.bufLen_toNat, List.length_append, bufLen_toNat hb]

/-- A packet of UPDATEN holds at most 32 bytes. -/
theorem packets_length_le (m : List Byte) : ∀ x ∈ packets m, x.length ≤ 32 := by
  intro x hx
  rw [packets, List.mem_append] at hx
  rcases hx with hfull | hrest
  · obtain ⟨j, -, rfl⟩ := List.mem_map.mp hfull
    exact List.length_take_le _ _
  · split at hrest
    · cases hrest
    · rw [List.mem_singleton] at hrest
      rw [hrest, List.length_drop]
      omega

/-- RESET, UPDATEN and a FIN: every response is without error, and the last carries the digest. -/
theorem oneShot_run {f : Instr} {digest : Vec4 → List Byte → Port} (hf : (f, digest) ∈ digests)
    (s : State) (key : Vec4) (m : List Byte) :
    InstrsErrorFree (.reset key :: (updateN m ++ [f])) s
      ∧ ∃ t, runInstrs (.reset key :: (updateN m ++ [f])) s = .next t
        ∧ t.rsp = some ⟨false, none, digest key m⟩ ∧ t.phase = .done := by
  obtain ⟨t, hrun, ht, -⟩ := runInstrs_updates (packets m) (packets_length_le m)
    (inStream_respond (inStream_load key s) 0#256)
  rw [List.nil_append, packets_flatten] at ht
  rw [← updateN_eq_map] at hrun
  obtain ⟨u, hu, hdig⟩ := exec_fin_of_inStream hf ht
  have hall := ErrorFreeRun.cons (exec_reset_eq s key) (respond_rsp _ _)
    (hrun.append (.cons hu hdig.rsp (.nil u)))
  exact ⟨hall.free, u, hall.run, hdig.rsp, hdig.phase⟩

/-- Settles O54, one width after another. -/
theorem oneShotHashReturnsTheDigest : Obligations.OneShotHashReturnsTheDigest := fun s key m =>
  ⟨oneShot_run (by simp [digests]) s key m, oneShot_run (by simp [digests]) s key m,
    oneShot_run (by simp [digests]) s key m⟩

end Sys2Proof.Machine
